-- ==== Sys2Proof/Word.lean ====
section
/-! DEFINITION. The word types of the block: a payload byte (spec 00_scope.md R5, R7) and the
40-bit command word (30_encoding.md R47). -/

namespace Sys2Proof

/-- An unsigned 8-bit byte; bit 0 is the least significant (R5, R7). -/
abbrev Byte := BitVec 8

/-- The 40-bit command word `CW`; bit 39 is the most significant (R47). -/
abbrev CommandWord := BitVec 40

end Sys2Proof
end

