-- ==== Sys2Proof/Config.lean ====
section
/-! DEFINITION. The fixed parameters of the block (spec 00_scope.md R5) and the values the spec
leaves open: `LATENCY` and what the output ports show outside `rsp_valid`. -/

namespace Sys2Proof.Config

/-- `CAPACITY`: bit cells in the bit buffer (R5). -/
abbrev capacity : Nat := 52

/-- `PREAMBLE_ONES`: leading one bits (R5; 90_conflicts.md C1 settles 15 against 16). -/
abbrev preambleOnes : Nat := 15

/-- `PREAMBLE_PATTERN`: 15 ones, then one zero, written as 16 bits (R5, R63). -/
def preamblePattern : BitVec 16 := 0xFFFE#16

/-- `BITS_PER_BYTE`: 1 start bit and 8 data bits (R5). -/
abbrev bitsPerByte : Nat := 9

/-- `MAX_PAYLOAD`: the largest payload that fits (R5, R6). -/
abbrev maxPayload : Nat := 4

/-- `BASELINE_LEN`: bit length of every baseline packet (R5). -/
abbrev baselineLen : Nat := 43

/-- `N_FIELD_MAX`: the largest payload count a command can state (R5). -/
abbrev nFieldMax : Nat := 15

/-- What a cell of `BB` that the memory list does not name reads as: the reset value 0 of every
cell (70_reset_and_hazards.md R107). Log 6. -/
def unlistedCell : Bool := false

/-- Open part of `LATENCY` (R5, R120; I1): no value of it can be proved. Log 10. -/
opaque latencyBeyondOne : CommandWord → Nat

/-- `LATENCY`: cycles from acceptance of a word to its response, finite and at least 1 (R5, R120).
No rule and no step of the model depends on it. -/
def latency (w : CommandWord) : Nat := latencyBeyondOne w + 1

/-- Free value: `SpeedField` of a speed outside 0..28, where 41_speed_direction.md R72 states no
result. No run reaches it (10_state.md R13), and nothing about it can be proved. Log 13. -/
opaque unstatedSpeedField : Byte → BitVec 5

/-! Free values: what read number `k` of an output port shows while `rsp_valid` is not asserted
(70_reset_and_hazards.md R111; I4: "a fresh arbitrary value on each read"). UNSTATED by the spec,
so nothing about them can be proved. Log 4. -/

/-- Free value of the `status` port (R111, I4). -/
opaque undefinedStatus : Nat → BitVec 3

/-- Free value of the `len` port (R111, I4). -/
opaque undefinedLen : Nat → BitVec 6

/-- Free value of the `buf_out` port (R111, I4). -/
opaque undefinedBufOut : Nat → Vector Bool 52

/-- Free value of the `pkt_valid` port (R111, I4). -/
opaque undefinedPktValid : Nat → Bool

/-- Free value of the `pkt_addr` port (R111, I4). -/
opaque undefinedPktAddr : Nat → Byte

/-- Free value of the `pkt_instr` port (R111, I4). -/
opaque undefinedPktInstr : Nat → Byte

end Sys2Proof.Config
end

