-- ==== Sys2Proof/Syntax.lean ====
section
/-! DEFINITION. The commands of the block as syntax: one constructor for each row of
spec/opcode_table.json (30_encoding.md R52). -/

namespace Sys2Proof

/-- Direction, "one of {Forward, Backward}" (10_state.md R16). -/
inductive Direction where
  | forward
  | backward
deriving DecidableEq, Repr

/-- A command of the block (30_encoding.md R52). -/
inductive Instr where
  /-- FRAME: payload count and the four byte fields (R49, R50, R64). -/
  | frame (n : Nat) (b0 b1 b2 b3 : Byte)
  /-- SET_ADDR: `IMM8` is the address (R51, R76). -/
  | setAddr (a : Byte)
  /-- SET_SPEED: `IMM8` is the speed (R51, R77). -/
  | setSpeed (sp : Byte)
  /-- SET_DIR: `F1` is the direction (R51, R78). -/
  | setDir (d : Direction)
  /-- SET_ESTOP: `F1` is the flag (R51, R79). -/
  | setEstop (e : Bool)
  /-- BUILD (R80). -/
  | build
  /-- SER_SD (R82). -/
  | serSd
  /-- SER_RESET (R87). -/
  | serReset
  /-- SER_IDLE (R88). -/
  | serIdle
  /-- SER_BSTOP_IMM (R89). -/
  | serBstopImm
  /-- SER_BSTOP_FLOAT (R90). -/
  | serBstopFloat
  /-- BUF_CLEAR (R67). -/
  | bufClear
deriving DecidableEq, Repr

end Sys2Proof
end

