-- ==== Sys2Proof/WellFormed.lean ====
section
/-! DEFINITION. Which commands a command word can state. Every operand but FRAME's count has a type
that is exactly its field; the count is a number (30_encoding.md R49) and must fit the field. -/

namespace Sys2Proof

/-- The command has an encoding: FRAME's `N` is at most `N_FIELD_MAX` (R5, R49, R57). -/
def Instr.wellFormed : Instr → Bool
  | .frame n _ _ _ _ => decide (n ≤ Config.nFieldMax)
  | .setAddr _ => true
  | .setSpeed _ => true
  | .setDir _ => true
  | .setEstop _ => true
  | .build => true
  | .serSd => true
  | .serReset => true
  | .serIdle => true
  | .serBstopImm => true
  | .serBstopFloat => true
  | .bufClear => true

end Sys2Proof
end

