-- ==== Sys2Proof/Decode.lean ====
section
/-! DEFINITION. Decoding a command word, total on all 2^40 words (30_encoding.md R53, R54), the
encoder (R47, R52, R57), the opcode map as match and mask (R52), and the host's numbering of a
table word. -/

namespace Sys2Proof

/-- Why decode rejects a word (R54, R55). Either way the word raises ILLEGAL_COMMAND (R95). Log 18. -/
inductive IllegalWord where
  /-- The opcode is 0x0 or 0xD..0xF. -/
  | reservedOpcode
  /-- A must-be-zero bit of the opcode's row is 1. -/
  | nonzeroMustBeZero
deriving DecidableEq, Repr

/-- The one bit that stands for a Direction: Forward = 1, Backward = 0 (10_state.md R16). -/
def Direction.toBit : Direction → BitVec 1
  | .forward => 1#1
  | .backward => 0#1

/-- The Direction a bit stands for (R16). -/
def Direction.ofBit (b : BitVec 1) : Direction :=
  if b = 1#1 then .forward else .backward

/-- The `i`-operand command, if the `n` bits from bit `lo` of the word are all zero (R52, R54). -/
def whenZero (w : CommandWord) (lo n : Nat) (i : Instr) : Except IllegalWord Instr :=
  if w.extractLsb' lo n = 0#n then .ok i else .error .nonzeroMustBeZero

/-- The decode procedure of R54. -/
def decode (w : CommandWord) : Except IllegalWord Instr :=
  let imm8 : Byte := w.extractLsb' 0 8
  let f1 : BitVec 1 := w.extractLsb' 0 1
  match (w.extractLsb' 36 4).toNat with
  | 0x1 => .ok (.frame (w.extractLsb' 32 4).toNat (w.extractLsb' 24 8) (w.extractLsb' 16 8)
      (w.extractLsb' 8 8) (w.extractLsb' 0 8))
  | 0x2 => whenZero w 8 28 (.setAddr imm8)
  | 0x3 => whenZero w 8 28 (.setSpeed imm8)
  | 0x4 => whenZero w 1 35 (.setDir (Direction.ofBit f1))
  | 0x5 => whenZero w 1 35 (.setEstop (f1 = 1#1))
  | 0x6 => whenZero w 0 36 .build
  | 0x7 => whenZero w 0 36 .serSd
  | 0x8 => whenZero w 0 36 .serReset
  | 0x9 => whenZero w 0 36 .serIdle
  | 0xA => whenZero w 0 36 .serBstopImm
  | 0xB => whenZero w 0 36 .serBstopFloat
  | 0xC => whenZero w 0 36 .bufClear
  | _ => .error .reservedOpcode

/-- The command word of a command: the fields of R47 under the opcodes of R52. FRAME's count takes
the four bits of its field; a count above 15 has no word (`Instr.wellFormed`). -/
def encode : Instr → CommandWord
  | .frame n b0 b1 b2 b3 => 0x1#4 ++ BitVec.ofNat 4 n ++ b0 ++ b1 ++ b2 ++ b3
  | .setAddr a => 0x2#4 ++ 0#28 ++ a
  | .setSpeed sp => 0x3#4 ++ 0#28 ++ sp
  | .setDir d => 0x4#4 ++ 0#35 ++ d.toBit
  | .setEstop e => 0x5#4 ++ 0#35 ++ BitVec.ofBool e
  | .build => 0x6#4 ++ 0#36
  | .serSd => 0x7#4 ++ 0#36
  | .serReset => 0x8#4 ++ 0#36
  | .serIdle => 0x9#4 ++ 0#36
  | .serBstopImm => 0xA#4 ++ 0#36
  | .serBstopFloat => 0xB#4 ++ 0#36
  | .bufClear => 0xC#4 ++ 0#36

/-- A row of the opcode map as match and mask: a word `w` selects it when `w &&& mask` is the match
(R52). -/
structure OpcodeRow where
  mnemonic : String
  matchBits : CommandWord
  mask : CommandWord
deriving DecidableEq, Repr

/-- The word selects the row (R52). -/
def OpcodeRow.selects (r : OpcodeRow) (w : CommandWord) : Bool := w &&& r.mask == r.matchBits

/-- The row of R52 a command belongs to. -/
def Instr.row : Instr → OpcodeRow
  | .frame _ _ _ _ _ => ⟨"FRAME", 0x1000000000#40, 0xF000000000#40⟩
  | .setAddr _ => ⟨"SET_ADDR", 0x2000000000#40, 0xFFFFFFFF00#40⟩
  | .setSpeed _ => ⟨"SET_SPEED", 0x3000000000#40, 0xFFFFFFFF00#40⟩
  | .setDir _ => ⟨"SET_DIR", 0x4000000000#40, 0xFFFFFFFFFE#40⟩
  | .setEstop _ => ⟨"SET_ESTOP", 0x5000000000#40, 0xFFFFFFFFFE#40⟩
  | .build => ⟨"BUILD", 0x6000000000#40, 0xFFFFFFFFFF#40⟩
  | .serSd => ⟨"SER_SD", 0x7000000000#40, 0xFFFFFFFFFF#40⟩
  | .serReset => ⟨"SER_RESET", 0x8000000000#40, 0xFFFFFFFFFF#40⟩
  | .serIdle => ⟨"SER_IDLE", 0x9000000000#40, 0xFFFFFFFFFF#40⟩
  | .serBstopImm => ⟨"SER_BSTOP_IMM", 0xA000000000#40, 0xFFFFFFFFFF#40⟩
  | .serBstopFloat => ⟨"SER_BSTOP_FLOAT", 0xB000000000#40, 0xFFFFFFFFFF#40⟩
  | .bufClear => ⟨"BUF_CLEAR", 0xC000000000#40, 0xFFFFFFFFFF#40⟩

/-- The twelve rows of the opcode map (R52), one sample command standing for each. -/
def opcodeMap : List OpcodeRow :=
  [.frame 0 0 0 0 0, .setAddr 0, .setSpeed 0, .setDir .backward, .setEstop false, .build, .serSd,
    .serReset, .serIdle, .serBstopImm, .serBstopFloat, .bufClear].map Instr.row

/-- The command word whose bits are `w`, of which the table gives the low `nbits`; every bit above
them is 0. Bit `i` of the number is `CW[i]` (R47). Log 16. -/
def tableWord (nbits w : Nat) : CommandWord := BitVec.ofNat 40 (w % 2 ^ nbits)

/-- What the decoder reads from the command word whose bits are `w`. -/
def decodeTableWord (nbits w : Nat) : Option Instr :=
  match decode (tableWord nbits w) with
  | .ok i => some i
  | .error _ => none

end Sys2Proof
end

