-- ==== Sys2Proof/Machine/State.lean ====
section
/-! DEFINITION. The state of the block as plain data (spec 10_state.md R10), the interface state
behind its ports (R25), why a step can stop, and the state after reset
(70_reset_and_hazards.md R107). -/

namespace Sys2Proof.Machine

/-- The bit buffer `BB` as a sparse list of (position, bit), positions rising, no entry equal to what
an unlisted cell reads as; `Memory.wf` says so (20_memory.md R29). Log 6. -/
abbrev Memory := List (Nat × Bool)

/-- Why the machine stops. -/
inductive Fault where
  /-- A `BitSet`, `MemWrite` or `MemRead` with `p + n > 52`: "a model that reaches one must treat it
  as a fault of the model" (20_memory.md R37; I5). Raised by the buffer operations of
  Machine/Ops.lean. Safe: no value is made up, and the length check of R62 keeps every command
  away from it. -/
  | bufferOverrun
deriving DecidableEq, Repr

/-- Why the machine declines an instruction. -/
inductive Refusal where
  /-- An instruction without a meaning, named by its mnemonic. Safe: nothing is claimed of it. No arm
  of the machine answers it: every command of the table has its meaning. -/
  | notModelled (mnemonic : String)
deriving DecidableEq, Repr

/-- The status codes of 60_exceptions.md R94. Codes 6 and 7 have no constructor: they are never
written (I7; log 7). -/
inductive StatusCode where
  | ok
  | invalidAddress
  | invalidSpeed
  | tooLong
  | illegalCommand
  | noPacket
deriving DecidableEq, Repr

/-- What the host drives next (10_state.md R25; 70_reset_and_hazards.md R106, R110). Log 2. -/
inductive HostEvent where
  /-- `cmd` with `cmd_valid`, held until the block accepts it (I8). Log 15. -/
  | command (w : CommandWord)
  /-- `rst`, asserted once no command is in progress. -/
  | rst
  /-- `rst`, asserted at once: a command in progress is abandoned (R106). -/
  | rstInFlight
deriving DecidableEq, Repr

/-- The registers of R10, the interface state of R25, and the model's own list of what the host
drives next. -/
structure State where
  /-- `B_ADDR` (R12). -/
  bAddr : Byte
  /-- `B_ADDR_V` (R12). -/
  bAddrV : Bool
  /-- `B_SPEED` (R13). -/
  bSpeed : Byte
  /-- `B_SPEED_V` (R13). -/
  bSpeedV : Bool
  /-- `B_ESTOP` (R14). -/
  bEstop : Bool
  /-- `B_DIR` (R15, R16). -/
  bDir : Direction
  /-- `B_DIR_V` (R15). -/
  bDirV : Bool
  /-- `PKT_ADDR` (R20). -/
  pktAddr : Byte
  /-- `PKT_INSTR` (R20). -/
  pktInstr : Byte
  /-- `PKT_VALID` (R20). -/
  pktValid : Bool
  /-- `BB` (R22, R29). -/
  bb : Memory
  /-- `LEN` (R23). -/
  len : BitVec 6
  /-- `STATUS` (R24, R94). -/
  status : BitVec 3
  /-- The accepted command that has not completed yet; none means `cmd_ready` (R25, R26). Log 1. -/
  inProgress : Option CommandWord
  /-- `rsp_valid` (R25, R111). Log 1. -/
  rspValid : Bool
  /-- The model's own field: what the host drives next, first event first. Log 2. -/
  hostEvents : List HostEvent
deriving DecidableEq, Repr

/-- The state right after reset: the values of R107; no command in progress, no response, and nothing
driven by the host yet (R106, R108). Logs 2, 5, 9. -/
def State.reset : State where
  bAddr := 0x00#8
  bAddrV := false
  bSpeed := 0x00#8
  bSpeedV := false
  bEstop := false
  bDir := .forward
  bDirV := false
  pktAddr := 0x00#8
  pktInstr := 0x00#8
  pktValid := false
  bb := []
  len := 0#6
  status := 0#3
  inProgress := none
  rspValid := false
  hostEvents := []

end Sys2Proof.Machine
end

