-- ==== Sys2Proof/Machine/Ops.lean ====
section
/-! DEFINITION. The shared operations: the bit buffer (20_memory.md R32–R35), how a command ends
(`raise`, `complete`; 00_scope.md R8, 60_exceptions.md R97) and the framing procedure
(40_framing.md R62, R63). -/

namespace Sys2Proof.Machine

/-! ### The bit buffer -/

/-- Every entry lies at `lo` or above and inside the buffer, rises, and differs from what an unlisted
cell reads as. -/
def Memory.wfFrom (lo : Nat) : Memory → Bool
  | [] => true
  | (p, v) :: rest =>
    decide (lo ≤ p) && decide (p < Config.capacity) && (v != Config.unlistedCell)
      && Memory.wfFrom (p + 1) rest

/-- The canonical form of `BB`: equal contents are equal data. Log 6. -/
def Memory.wf (m : Memory) : Bool := Memory.wfFrom 0 m

/-- `BB[p]` (R29). -/
def readCell : Memory → Nat → Bool
  | [], _ => Config.unlistedCell
  | (q, v) :: rest, p => if q = p then v else readCell rest p

/-- Put an entry in its place among the positions of a list that does not name it. -/
def insertCell (p : Nat) (v : Bool) : Memory → Memory
  | [] => [(p, v)]
  | (q, w) :: rest => if p < q then (p, v) :: (q, w) :: rest else (q, w) :: insertCell p v rest

/-- `BB[p] <- v`, in canonical form. -/
def writeCell (m : Memory) (p : Nat) (v : Bool) : Memory :=
  let others := m.filter (fun c => c.1 != p)
  if v = Config.unlistedCell then others else insertCell p v others

/-- Write bits at `p`, `p + 1`, … in wire order. -/
def writeCells (m : Memory) (p : Nat) : List Bool → Memory
  | [] => m
  | b :: bs => writeCells (writeCell m p b) (p + 1) bs

/-- The bits of a value, most significant first (R31, R33). -/
def msbFirst {n : Nat} (v : BitVec n) : List Bool := (List.range n).map v.getMsbD

/-- The `n`-bit access at `p` stays inside the buffer (R37). -/
def inBuffer (p n : Nat) : Bool := decide (p + n ≤ Config.capacity)

/-- `BitSet(p, v)` (R32); past the buffer it is the fault of R37. -/
def bitSet (p : Nat) (v : Bool) (m : Memory) : Except Fault Memory :=
  if inBuffer p 1 then .ok (writeCell m p v) else .error .bufferOverrun

/-- `MemWrite(p, n, v)`: the MSB of `v` goes to the lowest position (R33); past the buffer it is the
fault of R37. -/
def memWrite (p : Nat) {n : Nat} (v : BitVec n) (m : Memory) : Except Fault Memory :=
  if inBuffer p n then .ok (writeCells m p (msbFirst v)) else .error .bufferOverrun

/-- The number whose bits, most significant first, are given (R34). -/
def natOfBits (bits : List Bool) : Nat := bits.foldl (fun acc b => 2 * acc + b.toNat) 0

/-- `MemRead(p, n)`: the bits at `p..p+n-1` as an unsigned number, `BB[p]` its MSB (R34); past the
buffer it is the fault of R37. No command reads `BB`; the host does. -/
def memRead (p n : Nat) (m : Memory) : Except Fault (BitVec n) :=
  if inBuffer p n then
    .ok (BitVec.ofNat n (natOfBits ((List.range n).map (fun j => readCell m (p + j)))))
  else .error .bufferOverrun

/-- Byte `k` of the byte view `BV[0..6]`: seven bytes, the low nibble of the last reading 0 (R35).
Log 19. -/
def byteView (k : Nat) (m : Memory) : Except Fault Byte :=
  if k < 6 then memRead (8 * k) 8 m
  else if k = 6 then
    match memRead 48 4 m with
    | .ok v => .ok (v ++ 0#4)
    | .error f => .error f
  else .error .bufferOverrun

/-! ### How a command ends -/

/-- The number of a status code (60_exceptions.md R94). -/
def StatusCode.number : StatusCode → BitVec 3
  | .ok => 0#3
  | .invalidAddress => 1#3
  | .invalidSpeed => 2#3
  | .tooLong => 3#3
  | .illegalCommand => 4#3
  | .noPacket => 5#3

/-- `raise E`: the command ends with `STATUS <- E`; no other state changes (R8, R97). -/
def raise (e : StatusCode) (s : State) : Host.Outcome State Fault Refusal :=
  .next { s with status := e.number }

/-- `complete()`: the command ends with `STATUS <- OK` (R8). -/
def complete (s : State) : Host.Outcome State Fault Refusal :=
  .next { s with status := StatusCode.ok.number }

/-- `complete(n)`: the command ends with `LEN <- n` and `STATUS <- OK` (R8). -/
def completeWithLen (n : Nat) (s : State) : Host.Outcome State Fault Refusal :=
  complete { s with len := BitVec.ofNat 6 n }

/-! ### The framing procedure -/

/-- The number of bits a payload of `n` bytes takes: `15 + 9*N + 1` (R62). -/
def requiredBits (n : Nat) : Nat := Config.preambleOnes + Config.bitsPerByte * n + 1

/-- The loop of R63: a start bit 0, then the byte, for each payload byte, from the cursor `pos`. It
answers the cursor after the last byte. -/
def renderBytes : List Byte → Nat → Memory → Except Fault (Nat × Memory)
  | [], pos, m => .ok (pos, m)
  | b :: bs, pos, m => do
    let m ← bitSet pos false m
    let m ← memWrite (pos + 1) b m
    renderBytes bs (pos + Config.bitsPerByte) m

/-- The writes of R63 in order: the preamble pattern, the bytes from cursor 15, the stop bit 1. It
answers the final cursor and the buffer. -/
def renderPacket (d : List Byte) (m : Memory) : Except Fault (Nat × Memory) := do
  let m ← memWrite 0 Config.preamblePattern m
  let (pos, m) ← renderBytes d Config.preambleOnes m
  let m ← bitSet pos true m
  .ok (pos + 1, m)

/-- `Frame(d)`: the length check before any write (R62), then the writes and `complete(pos)` (R63). -/
def frame (d : List Byte) (s : State) : Host.Outcome State Fault Refusal :=
  if Config.capacity < requiredBits d.length then raise .tooLong s
  else
    match renderPacket d s.bb with
    | .ok (pos, m) => completeWithLen pos { s with bb := m }
    | .error f => .fault f

end Sys2Proof.Machine
end

