-- ==== Sys2Proof/Machine/Operands.lean ====
section
/-! DEFINITION. Operand assembly (30_encoding.md R50), the builder's defaults (41_speed_direction.md
R80, R81) and the combinational functions of the encoder (R66, R72–R75). -/

namespace Sys2Proof.Machine

/-- FRAME's payload list: the first `min(N, 4)` byte fields; the others are ignored (R50). -/
def framePayload (n : Nat) (b0 b1 b2 b3 : Byte) : List Byte := [b0, b1, b2, b3].take (min n 4)

/-- `Checksum(d)`: the bytewise exclusive-or of the bytes of `d` (40_framing.md R66). -/
def checksum (d : List Byte) : Byte := d.foldl (· ^^^ ·) 0x00#8

/-- The payload of a baseline packet: address, instruction and their checksum (R66, R82, R85). -/
def baselinePayload (a i : Byte) : List Byte := [a, i, checksum [a, i]]

/-- `SpeedField(s)`: 0 for speed 0, `s + 3` for 1..28, in 5 bits (R72; 90_conflicts.md C2); for other
values the rule states nothing and the value is free (log 13). -/
def speedField (sp : Byte) : BitVec 5 :=
  if sp = 0#8 then 0#5
  else if sp.toNat ≤ 28 then (sp + 3#8).setWidth 5
  else Config.unstatedSpeedField sp

/-- `InstrByte(d, s, e)`: the marker 01, the direction bit, then the e-stop pattern 0 0001 or the
speed field's LSB followed by its bits 4..1 (R73, R74). -/
def instrByte (d : Direction) (sp : Byte) (e : Bool) : Byte :=
  let f := speedField sp
  let low : BitVec 5 := if e then 0#1 ++ 0b0001#4 else f.extractLsb' 0 1 ++ f.extractLsb' 1 4
  0b01#2 ++ d.toBit ++ low

/-- `Opposite(d)`: no command applies it (R75). -/
def opposite : Direction → Direction
  | .forward => .backward
  | .backward => .forward

/-- The address BUILD reads: the staged one, or the default 3 (R80, R81). -/
def builderAddr (s : State) : Byte := if s.bAddrV then s.bAddr else 3#8

/-- The speed BUILD reads: the staged one, or the default 0 (R80, R81). -/
def builderSpeed (s : State) : Byte := if s.bSpeedV then s.bSpeed else 0#8

/-- The direction BUILD reads: the staged one, or the default Forward (R80, R81). -/
def builderDir (s : State) : Direction := if s.bDirV then s.bDir else .forward

end Sys2Proof.Machine
end

