-- ==== Sys2Proof/Machine/FixedPackets.lean ====
section
/-! DEFINITION. The meanings of the four fixed-packet commands (spec 42_fixed_packets.md R85, R86). -/

namespace Sys2Proof.Machine

/-- SER_RESET (R87): `Frame([0x00, 0x00, 0x00])`. -/
def execSerReset (s : State) : Host.Outcome State Fault Refusal :=
  frame (baselinePayload 0x00#8 0x00#8) s

/-- SER_IDLE (R88): `Frame([0xFF, 0x00, 0xFF])`. -/
def execSerIdle (s : State) : Host.Outcome State Fault Refusal :=
  frame (baselinePayload 0xFF#8 0x00#8) s

/-- SER_BSTOP_IMM (R89): `Frame([0x00, 0x40, 0x40])`. -/
def execSerBstopImm (s : State) : Host.Outcome State Fault Refusal :=
  frame (baselinePayload 0x00#8 0x40#8) s

/-- SER_BSTOP_FLOAT (R90): `Frame([0x00, 0x50, 0x50])`. -/
def execSerBstopFloat (s : State) : Host.Outcome State Fault Refusal :=
  frame (baselinePayload 0x00#8 0x50#8) s

end Sys2Proof.Machine
end

