-- ==== Sys2Proof/Machine/Flags.lean ====
section
/-! DEFINITION. The checks that decide a command's status code: the operand checks of
41_speed_direction.md R70, R71, and FRAME's count (40_framing.md R64). The block has no arithmetic
condition codes (10_state.md R18); its valid bits are written by the meanings themselves. -/

namespace Sys2Proof.Machine

/-- `AddrValid(a)`: `1 <= a <= 127` (R70). -/
def addrValid (a : Byte) : Bool := decide (1 ≤ a.toNat) && decide (a.toNat ≤ 127)

/-- `SpeedValid(s)`: `s <= 28` (R71). -/
def speedValid (sp : Byte) : Bool := decide (sp.toNat ≤ 28)

/-- FRAME's count is 5 or more: the TOO_LONG outcome, whatever the byte fields hold (R49, R64). -/
def countTooLong (n : Nat) : Bool := decide (5 ≤ n)

end Sys2Proof.Machine
end

