-- ==== Sys2Proof/Machine/Framing.lean ====
section
/-! DEFINITION. The meanings of FRAME and BUF_CLEAR (spec 40_framing.md). -/

namespace Sys2Proof.Machine

/-- FRAME (R64, R65): TOO_LONG when `N >= 5`, else the framing procedure on the first `N` bytes.
Logs 8, 12. -/
def execFrame (n : Nat) (b0 b1 b2 b3 : Byte) (s : State) : Host.Outcome State Fault Refusal :=
  if countTooLong n then raise .tooLong s else frame (framePayload n b0 b1 b2 b3) s

/-- BUF_CLEAR (R67): one 52-bit write of zeros, `LEN <- 0`, `STATUS <- OK`. -/
def execBufClear (s : State) : Host.Outcome State Fault Refusal :=
  match memWrite 0 (0#52) s.bb with
  | .ok m => completeWithLen 0 { s with bb := m }
  | .error f => .fault f

end Sys2Proof.Machine
end

