-- ==== Sys2Proof/Machine/SpeedDirection.lean ====
section
/-! DEFINITION. The meanings of the Speed-and-Direction commands (spec 41_speed_direction.md). -/

namespace Sys2Proof.Machine

/-- SET_ADDR (R76). -/
def execSetAddr (a : Byte) (s : State) : Host.Outcome State Fault Refusal :=
  if addrValid a then complete { s with bAddr := a, bAddrV := true } else raise .invalidAddress s

/-- SET_SPEED (R77). -/
def execSetSpeed (sp : Byte) (s : State) : Host.Outcome State Fault Refusal :=
  if speedValid sp then complete { s with bSpeed := sp, bSpeedV := true } else raise .invalidSpeed s

/-- SET_DIR (R78). -/
def execSetDir (d : Direction) (s : State) : Host.Outcome State Fault Refusal :=
  complete { s with bDir := d, bDirV := true }

/-- SET_ESTOP (R79). -/
def execSetEstop (e : Bool) (s : State) : Host.Outcome State Fault Refusal :=
  complete { s with bEstop := e }

/-- BUILD (R80, R81): the builder, with its defaults, into the packet register. -/
def execBuild (s : State) : Host.Outcome State Fault Refusal :=
  complete { s with
    pktAddr := builderAddr s
    pktInstr := instrByte (builderDir s) (builderSpeed s) s.bEstop
    pktValid := true }

/-- SER_SD (R82): NO_PACKET before any BUILD (R96), else the packet register is framed with its
checksum. -/
def execSerSd (s : State) : Host.Outcome State Fault Refusal :=
  if s.pktValid then frame (baselinePayload s.pktAddr s.pktInstr) s else raise .noPacket s

end Sys2Proof.Machine
end

