-- ==== Sys2Proof/Machine/Dispatch.lean ====
section
/-! DEFINITION. One arm for each command: the meaning it calls. -/

namespace Sys2Proof.Machine

def exec (i : Instr) (s : State) : Host.Outcome State Fault Refusal :=
  match i with
  | .frame n b0 b1 b2 b3 => Sys2Proof.Machine.execFrame n b0 b1 b2 b3 s
  | .setAddr a => Sys2Proof.Machine.execSetAddr a s
  | .setSpeed sp => Sys2Proof.Machine.execSetSpeed sp s
  | .setDir d => Sys2Proof.Machine.execSetDir d s
  | .setEstop e => Sys2Proof.Machine.execSetEstop e s
  | .build => Sys2Proof.Machine.execBuild s
  | .serSd => Sys2Proof.Machine.execSerSd s
  | .serReset => Sys2Proof.Machine.execSerReset s
  | .serIdle => Sys2Proof.Machine.execSerIdle s
  | .serBstopImm => Sys2Proof.Machine.execSerBstopImm s
  | .serBstopFloat => Sys2Proof.Machine.execSerBstopFloat s
  | .bufClear => Sys2Proof.Machine.execBufClear s

end Sys2Proof.Machine
end

