-- ==== Sys2Proof/Machine/HostPort.lean ====
section
/-! DEFINITION. The ports of the block at the transaction level (10_state.md R25, R26;
70_reset_and_hazards.md R106, R110–R112): accepting a command, completing it, `rst`, and what the
host reads. -/

namespace Sys2Proof.Machine

/-- `cmd_ready`: asserted whenever no command is in progress (R26). -/
def cmdReady (s : State) : Bool := s.inProgress.isNone

/-- The block accepts the word on `cmd`: a command is in progress and `rsp_valid` falls; no register
changes (R25, R110, R111). Log 1. -/
def acceptCommand (w : CommandWord) (s : State) : State :=
  { s with inProgress := some w, rspValid := false }

/-- The command in progress completes: `rsp_valid` rises and the block is ready again (R25, R26). -/
def respond (s : State) : State := { s with inProgress := none, rspValid := true }

/-- `rst`: every register takes its reset value, a command in progress is abandoned and no response
is given (R106, R107). What the host drives next is outside the block and stays. Log 3. -/
def applyReset (s : State) : State := { State.reset with hostEvents := s.hostEvents }

/-- One command as the atomic transaction of 00_scope.md R9: an illegal word raises ILLEGAL_COMMAND
(30_encoding.md R54; 60_exceptions.md R95, R98), any other word runs its meaning. -/
def executeWord (w : CommandWord) (s : State) : Host.Outcome State Fault Refusal :=
  match decode w with
  | .ok i => exec i s
  | .error _ => raise .illegalCommand s

/-- `w` as the accepted command in progress, with no reset landing on it. Log 2. -/
def placeCommand (w : CommandWord) (s : State) : State :=
  { acceptCommand w s with hostEvents := s.hostEvents.dropWhile (· == .rstInFlight) }

/-- The values of the output ports `status`, `len`, `buf_out`, `pkt_valid`, `pkt_addr`, `pkt_instr`
(R25). -/
structure Outputs where
  status : BitVec 3
  len : BitVec 6
  bufOut : Vector Bool 52
  pktValid : Bool
  pktAddr : Byte
  pktInstr : Byte
deriving DecidableEq, Repr

/-- The registers as the ports show them; `buf_out[i] = BB[i]` (R25). The builder has no port
(R11). -/
def registerOutputs (s : State) : Outputs where
  status := s.status
  len := s.len
  bufOut := Vector.ofFn (fun i => readCell s.bb i.val)
  pktValid := s.pktValid
  pktAddr := s.pktAddr
  pktInstr := s.pktInstr

/-- Read number `k` of the output ports: the registers while `rsp_valid` is asserted, else free
values (R111, R112; I4). Log 4. -/
def readOutputs (k : Nat) (s : State) : Outputs :=
  if s.rspValid then registerOutputs s
  else {
    status := Config.undefinedStatus k
    len := Config.undefinedLen k
    bufOut := Config.undefinedBufOut k
    pktValid := Config.undefinedPktValid k
    pktAddr := Config.undefinedPktAddr k
    pktInstr := Config.undefinedPktInstr k }

end Sys2Proof.Machine
end

