-- ==== Sys2Proof/Machine/Step.lean ====
section
/-! DEFINITION. One step of the block. It accepts a driven command, or completes the command in
progress in one atomic transaction (00_scope.md R9), or is reset (70_reset_and_hazards.md R106), or
waits for the host (R108). -/

namespace Sys2Proof.Machine

/-- One step. With a command in progress, a reset asserted at once abandons it and anything else the
host drives waits (R106, R110; I8). With none, the host's next event is taken. Logs 1, 2, 3. -/
def step (s : State) : Host.Outcome State Fault Refusal :=
  match s.inProgress, s.hostEvents with
  | some _, .rstInFlight :: rest => .next (applyReset { s with hostEvents := rest })
  | some w, _ => executeWord w (respond s)
  | none, .command w :: rest => .next (acceptCommand w { s with hostEvents := rest })
  | none, .rst :: rest => .next (applyReset { s with hostEvents := rest })
  | none, .rstInFlight :: rest => .next (applyReset { s with hostEvents := rest })
  | none, [] => .next s

/-- `s` with the command word of the bits `w` accepted, so that the next step runs it (log 2). -/
def State.withFetchWord (s : State) (nbits w : Nat) : State := placeCommand (tableWord nbits w) s

end Sys2Proof.Machine
end

