-- ==== Sys2Proof/Machine/Assembler.lean ====
section
/-! DEFINITION. The assembler of 30_encoding.md R57–R61: lines with number operands, their expansion
into commands and words, the disassembler, and the reading of a line's text. -/

namespace Sys2Proof.Machine

/-- A line of assembly, its numbers not yet checked against their ranges (R57, R58). -/
inductive AsmLine where
  /-- `FRAME N, b0, b1, b2, b3`; trailing `b` operands may be omitted. -/
  | frame (n : Nat) (bs : List Nat)
  | setAddr (a : Nat)
  | setSpeed (sp : Nat)
  | setDir (d : Direction)
  | setEstop (e : Nat)
  | build
  | serSd
  | serReset
  | serIdle
  | serBstopImm
  | serBstopFloat
  | bufClear
  /-- Pseudo-instruction `SEND_SD a, s, dir, e`. -/
  | sendSd (a sp : Nat) (d : Direction) (e : Nat)
  /-- Pseudo-instruction `FRAME3C x, y`. -/
  | frame3c (x y : Nat)
deriving DecidableEq, Repr

/-- A byte operand, rejected outside 0..255 (R57). -/
def asmByte (v : Nat) : Option Byte := if v ≤ 255 then some (BitVec.ofNat 8 v) else none

/-- A one-bit operand, rejected unless it is 0 or 1 (R57). -/
def asmFlag (v : Nat) : Option Bool := if v = 0 then some false else if v = 1 then some true else none

/-- FRAME with its count and byte operands in range; omitted trailing operands are 0 (R57). -/
def asmFrame (n : Nat) (bs : List Nat) : Option Instr :=
  if n ≤ Config.nFieldMax ∧ bs.length ≤ 4 then do
    let bytes ← bs.mapM asmByte
    some (.frame n (bytes.getD 0 0#8) (bytes.getD 1 0#8) (bytes.getD 2 0#8) (bytes.getD 3 0#8))
  else none

/-- The commands a line stands for; none where the assembler rejects it (R57, R58). -/
def expand : AsmLine → Option (List Instr)
  | .frame n bs => do some [← asmFrame n bs]
  | .setAddr a => do some [.setAddr (← asmByte a)]
  | .setSpeed sp => do some [.setSpeed (← asmByte sp)]
  | .setDir d => some [.setDir d]
  | .setEstop e => do some [.setEstop (← asmFlag e)]
  | .build => some [.build]
  | .serSd => some [.serSd]
  | .serReset => some [.serReset]
  | .serIdle => some [.serIdle]
  | .serBstopImm => some [.serBstopImm]
  | .serBstopFloat => some [.serBstopFloat]
  | .bufClear => some [.bufClear]
  | .sendSd a sp d e => do
    some [.setAddr (← asmByte a), .setSpeed (← asmByte sp), .setDir d, .setEstop (← asmFlag e),
      .build, .serSd]
  | .frame3c x y => do
    let bx ← asmByte x
    let b_y ← asmByte y
    some [.frame 3 bx b_y (checksum [bx, b_y]) 0#8]

/-- The words of a line (R57). -/
def assemble (l : AsmLine) : Option (List CommandWord) := (expand l).map (List.map encode)

/-- The one spelling of a command, FRAME with all four byte operands (R61). -/
def disassemble : Instr → AsmLine
  | .frame n b0 b1 b2 b3 => .frame n [b0.toNat, b1.toNat, b2.toNat, b3.toNat]
  | .setAddr a => .setAddr a.toNat
  | .setSpeed sp => .setSpeed sp.toNat
  | .setDir d => .setDir d
  | .setEstop e => .setEstop e.toNat
  | .build => .build
  | .serSd => .serSd
  | .serReset => .serReset
  | .serIdle => .serIdle
  | .serBstopImm => .serBstopImm
  | .serBstopFloat => .serBstopFloat
  | .bufClear => .bufClear

/-! ### The text of a line (R57: decimal or `0x` hexadecimal, case-insensitive). Log 14. -/

/-- The value of a lower-case digit, if it is one in the base. -/
def digitValue (base : Nat) (c : Char) : Option Nat :=
  let v := if c.isDigit then c.toNat - '0'.toNat
    else if 'a' ≤ c ∧ c ≤ 'f' then c.toNat - 'a'.toNat + 10 else 16
  if v < base then some v else none

/-- Digits onto an accumulator. -/
def lexDigits (base : Nat) : Nat → List Char → Option Nat
  | acc, [] => some acc
  | acc, c :: cs => do lexDigits base (base * acc + (← digitValue base c)) cs

/-- A lower-case number, decimal or `0x`-prefixed hexadecimal. -/
def lexNumber : List Char → Option Nat
  | [] => none
  | ['0', 'x'] => none
  | '0' :: 'x' :: ds => lexDigits 16 0 ds
  | ds => lexDigits 10 0 ds

/-- A direction operand. -/
def lexDirection (cs : List Char) : Option Direction :=
  if cs = ['f', 'w', 'd'] then some .forward
  else if cs = ['b', 'w', 'd'] then some .backward else none

/-- The text without the spaces at its ends. -/
def trimSpaces (cs : List Char) : List Char :=
  ((cs.dropWhile (· == ' ')).reverse.dropWhile (· == ' ')).reverse

/-- The pieces between commas, each trimmed. -/
def commaPieces : List Char → List Char → List (List Char)
  | acc, [] => [trimSpaces acc.reverse]
  | acc, c :: cs => if c = ',' then trimSpaces acc.reverse :: commaPieces [] cs else commaPieces (c :: acc) cs

/-- The operands after a mnemonic: none at all, or the pieces between commas. -/
def operandTexts (cs : List Char) : List (List Char) :=
  if trimSpaces cs = [] then [] else commaPieces [] cs

/-- A line's text as a line of assembly: a mnemonic of R57 or R58 and its operands. -/
def parseLine (text : List Char) : Option AsmLine :=
  let cs := trimSpaces (text.map Char.toLower)
  match String.ofList (cs.takeWhile (· != ' ')), operandTexts (cs.dropWhile (· != ' ')) with
  | "frame", n :: bs => do some (.frame (← lexNumber n) (← bs.mapM lexNumber))
  | "set_addr", [a] => do some (.setAddr (← lexNumber a))
  | "set_speed", [sp] => do some (.setSpeed (← lexNumber sp))
  | "set_dir", [d] => do some (.setDir (← lexDirection d))
  | "set_estop", [e] => do some (.setEstop (← lexNumber e))
  | "build", [] => some .build
  | "ser_sd", [] => some .serSd
  | "ser_reset", [] => some .serReset
  | "ser_idle", [] => some .serIdle
  | "ser_bstop_imm", [] => some .serBstopImm
  | "ser_bstop_float", [] => some .serBstopFloat
  | "buf_clear", [] => some .bufClear
  | "send_sd", [a, sp, d, e] => do
    some (.sendSd (← lexNumber a) (← lexNumber sp) (← lexDirection d) (← lexNumber e))
  | "frame3c", [x, y] => do some (.frame3c (← lexNumber x) (← lexNumber y))
  | _, _ => none

/-- The words of a line's text (R57). -/
def assembleText (text : List Char) : Option (List CommandWord) := (parseLine text).bind assemble

end Sys2Proof.Machine
end

