-- ==== Sys2Proof/Machine/Run.lean ====
section
/-! DEFINITION. Runs of the block, what is observed of them (70_reset_and_hazards.md R121), the
sequential meaning of a command list (20_memory.md R43), and platforms of several instances
(60_exceptions.md R104). -/

namespace Sys2Proof.Machine

/-- Up to `k` steps, stopping at the first fault or refusal. -/
def run : Nat → State → Host.Outcome State Fault Refusal
  | 0, s => .next s
  | k + 1, s =>
    match step s with
    | .next t => run k t
    | .fault f => .fault f
    | .refused r => .refused r

/-- The observation of `k` steps: the output values at each response, in order (R121). A step gives a
response when it ends the command in progress with `rsp_valid`; a reset observes nothing. Log 20. -/
def observations : Nat → State → List Outputs
  | 0, _ => []
  | k + 1, s =>
    match step s with
    | .next t =>
      if s.inProgress.isSome && t.rspValid then registerOutputs t :: observations k t
      else observations k t
    | .fault _ => []
    | .refused _ => []

/-- The end of a run: no command is in progress and the host drives nothing. After a last command that
completes this is the state after its response (R121). DESIGN CHOICE, where R121 is silent: a run whose
last event is `rst` ends after that reset, which gives no response, whether it abandons a command or
follows one; and a run with no command ends at once. Log 20. -/
def runEnded (s : State) : Bool := s.inProgress.isNone && s.hostEvents.isEmpty

/-- The sequential meaning of a list of command words: each sees every effect of the earlier ones
(R43). -/
def executeWords : List CommandWord → State → Host.Outcome State Fault Refusal
  | [], s => .next s
  | w :: ws, s =>
    match executeWord w s with
    | .next t => executeWords ws t
    | .fault f => .fault f
    | .refused r => .refused r

/-- Several instances, each with its own full state (20_memory.md R46; R104). Log 11. -/
abbrev Platform := List State

/-- One step of instance `k` (R104); a number that names no instance changes nothing. Log 11. -/
def platformStep (k : Nat) (p : Platform) : Host.Outcome Platform Fault Refusal :=
  match p[k]? with
  | none => .next p
  | some s =>
    match step s with
    | .next t => .next (p.set k t)
    | .fault f => .fault f
    | .refused r => .refused r

end Sys2Proof.Machine
end

