-- ==== Sys2Proof/Safety.lean ====
section
/-! DEFINITION. What the claims speak of: the layout of a framed packet (20_memory.md R42), the
invariants of the registers (10_state.md R12, R13, R20, R23; 60_exceptions.md R94), and what the host
can tell apart (10_state.md R27). -/

namespace Sys2Proof.Machine

/-- The first `16 + 9N` cells carry the payload `d` of `N` bytes, row by row of the table of R42, with no
reference to the framing procedure. -/
structure CarriesPacket (m : Memory) (d : List Byte) : Prop where
  /-- `[0..15)`: the preamble ones. -/
  preamble : ∀ p, p < 15 → readCell m p = true
  /-- `[15]` and `[24 + 9k]`: a start bit 0 before each byte. -/
  startBits : ∀ k, k < d.length → readCell m (15 + 9 * k) = false
  /-- `[16 + 9k .. 24 + 9k)`: payload byte `k`, most significant bit first. -/
  payload : ∀ k j, k < d.length → j < 8 →
    readCell m (16 + 9 * k + j) = (d.getD k 0#8).getLsbD (7 - j)
  /-- `[15 + 9N]`: the stop bit 1. -/
  stopBit : readCell m (15 + 9 * d.length) = true

/-- The first `16 + 9N` cells hold the frame of an `N`-byte packet: preamble ones, a start bit 0
before each byte, and the stop bit 1 (R42). -/
structure HoldsFrame (m : Memory) (n : Nat) : Prop where
  preamble : ∀ p, p < 15 → readCell m p = true
  startBits : ∀ k, k < n → readCell m (15 + 9 * k) = false
  stopBit : readCell m (15 + 9 * n) = true

/-- The invariants the spec gives the registers, with the model's own canonical form of `BB` and the
relation of its interface state. -/
structure StateInvariant (s : State) : Prop where
  /-- `BB` is in canonical form. -/
  bufferCanonical : Memory.wf s.bb = true
  /-- R12: "`B_ADDR_V = 1` implies `1 <= B_ADDR <= 127`". -/
  stagedAddr : s.bAddrV = true → 1 ≤ s.bAddr.toNat ∧ s.bAddr.toNat ≤ 127
  /-- R13: "`B_SPEED_V = 1` implies `0 <= B_SPEED <= 28`". -/
  stagedSpeed : s.bSpeedV = true → s.bSpeed.toNat ≤ 28
  /-- R20: the packet register holds an address in 1..127 … -/
  packetAddr : s.pktValid = true → 1 ≤ s.pktAddr.toNat ∧ s.pktAddr.toNat ≤ 127
  /-- … and an instruction byte of some direction, speed in 0..28 and e-stop flag. -/
  packetInstr : s.pktValid = true →
    ∃ d sp e, sp.toNat ≤ 28 ∧ s.pktInstr = instrByte d sp e
  /-- R23: LEN is 0 or 16 + 9N; then `BB[0..LEN)` is a whole frame (R42, R68, R118). -/
  lenFrame : s.len.toNat = 0 ∨ ∃ n, n ≤ 4 ∧ s.len.toNat = 16 + 9 * n ∧ HoldsFrame s.bb n
  /-- R94: a status code, never 6 or 7. -/
  statusCode : s.status.toNat ≤ 5
  /-- R111: `rsp_valid` is not asserted while a command is in progress. -/
  busySilent : s.inProgress.isSome = true → s.rspValid = false

/-- The four staged fields of the builder (10_state.md R11). -/
inductive BuilderField where
  | addr
  | speed
  | dir
  | estop
deriving DecidableEq, Repr

/-- The field a setter stages; none for a command that is no setter (R11). -/
def setterField : Instr → Option BuilderField
  | .setAddr _ => some .addr
  | .setSpeed _ => some .speed
  | .setDir _ => some .dir
  | .setEstop _ => some .estop
  | .frame _ _ _ _ _ => none
  | .build => none
  | .serSd => none
  | .serReset => none
  | .serIdle => none
  | .serBstopImm => none
  | .serBstopFloat => none
  | .bufClear => none

/-- The commands that may write `BB` and `LEN`: FRAME, the SER_* commands and BUF_CLEAR (R22, R23;
20_memory.md R30). -/
def mayWriteBuffer : Instr → Bool
  | .frame _ _ _ _ _ => true
  | .serSd => true
  | .serReset => true
  | .serIdle => true
  | .serBstopImm => true
  | .serBstopFloat => true
  | .bufClear => true
  | .setAddr _ => false
  | .setSpeed _ => false
  | .setDir _ => false
  | .setEstop _ => false
  | .build => false

/-- Two states the host cannot tell apart (R27): everything it can read, or that it drives, agrees,
and the builders agree on what BUILD reads of them (R80), whatever is staged behind it. -/
structure HostAgree (s t : State) : Prop where
  addr : builderAddr s = builderAddr t
  speed : builderSpeed s = builderSpeed t
  dir : builderDir s = builderDir t
  estop : s.bEstop = t.bEstop
  pktAddr : s.pktAddr = t.pktAddr
  pktInstr : s.pktInstr = t.pktInstr
  pktValid : s.pktValid = t.pktValid
  bb : s.bb = t.bb
  len : s.len = t.len
  status : s.status = t.status
  inProgress : s.inProgress = t.inProgress
  rspValid : s.rspValid = t.rspValid
  hostEvents : s.hostEvents = t.hostEvents

end Sys2Proof.Machine
end

