-- ==== Sys2Proof/Certificates/Slice0/Obligations.lean ====
section
/-! DEFINITION. The statements for the provers. Each docstring names the rule it formalises; where a
rule carries the spec's own mark "decision" or "derived", the docstring says so. -/

open Sys2Proof Sys2Proof.Machine

/-! ### Encoding -/

/-- Decoding the word of any well-formed command gives the command back. Rests on the spec's own
decisions D2, D3, D4 (30_encoding.md R47, R52, R54). -/
def Obligations.DecodeOfEncodeIsIdentity : Prop :=
  ∀ i : Instr, i.wellFormed = true → decode (encode i) = .ok i

/-- A word that decodes is the encoding of what it decodes to, which is well-formed: no two words are
one command and no bit of a legal word is dropped. Rests on D2, D3, D4 (R53, R54). -/
def Obligations.EncodeOfDecodeIsIdentity : Prop :=
  ∀ (w : CommandWord) (i : Instr), decode w = .ok i → i.wellFormed = true ∧ encode i = w

/-- The decode procedure (R54) and the match and mask table (R52) are one decoder: a word decodes to a
command exactly through the one row it selects (R53, marked derived). -/
def Obligations.DecodeAgreesWithOpcodeMap : Prop :=
  ∀ w : CommandWord,
    (∀ i, decode w = .ok i → i.row ∈ opcodeMap ∧ i.row.selects w = true) ∧
    (∀ r ∈ opcodeMap, r.selects w = true → ∃ i, decode w = .ok i ∧ i.row = r)

/-- Reserved opcodes and nonzero must-be-zero bits are illegal, and every word of opcode 1 is legal (R52,
R54, R55; the spec's own decisions D3, D4). The spec has the one verdict ILLEGAL; that each cause is
rejected under a name of its own is the model's choice (log 18). -/
def Obligations.IllegalWordsAreRejectedByName : Prop :=
  ∀ w : CommandWord,
    (w.extractLsb' 36 4 ∈ [0x0#4, 0xD#4, 0xE#4, 0xF#4] → decode w = .error .reservedOpcode) ∧
    (w.extractLsb' 36 4 = 0x1#4 → ∃ i, decode w = .ok i) ∧
    (w.extractLsb' 36 4 ∈ [0x2#4, 0x3#4] → w.extractLsb' 8 28 ≠ 0#28 →
      decode w = .error .nonzeroMustBeZero) ∧
    (w.extractLsb' 36 4 ∈ [0x4#4, 0x5#4] → w.extractLsb' 1 35 ≠ 0#35 →
      decode w = .error .nonzeroMustBeZero) ∧
    (w.extractLsb' 36 4 ∈ [0x6#4, 0x7#4, 0x8#4, 0x9#4, 0xA#4, 0xB#4, 0xC#4] →
      w.extractLsb' 0 36 ≠ 0#36 → decode w = .error .nonzeroMustBeZero)

/-- Sanity: words written out in R60 (marked derived) decode to the commands they stand for, and its two
illegal words are rejected. R60 says only "illegal"; the names of the two causes are the model's choice
(log 18). -/
def Obligations.ExampleWordsDecode : Prop :=
  decode 0x1323785B00#40 = .ok (.frame 3 0x23#8 0x78#8 0x5B#8 0x00#8) ∧
  decode 0x14DEADBEEF#40 = .ok (.frame 4 0xDE#8 0xAD#8 0xBE#8 0xEF#8) ∧
  decode 0x2000000080#40 = .ok (.setAddr 0x80#8) ∧
  decode 0x300000000E#40 = .ok (.setSpeed 14#8) ∧
  decode 0x4000000001#40 = .ok (.setDir .forward) ∧
  decode 0x5000000001#40 = .ok (.setEstop true) ∧
  decode 0xA000000000#40 = .ok .serBstopImm ∧
  decode 0x0000000000#40 = .error .reservedOpcode ∧
  decode 0x2000000123#40 = .error .nonzeroMustBeZero

/-! ### The step -/

/-- A command in progress whose word decodes is run by the next step: exec of the decoded command, on
the state in which the block is ready again and `rsp_valid` is asserted. The two-step transaction is
the model's choice (log 1), after R9, R25 and R26. -/
def Obligations.StepRunsTheDecodedCommand : Prop :=
  ∀ (s : State) (w : CommandWord) (i : Instr), s.inProgress = some w →
    s.hostEvents.head? ≠ some .rstInFlight → decode w = .ok i →
    step s = exec i { s with inProgress := none, rspValid := true }

/-- The word placed for the host is what the very next step runs (log 2 is the model's choice). -/
def Obligations.PlacedWordRunsNext : Prop :=
  ∀ (s : State) (w : Nat) (i : Instr), w < 2 ^ 40 → decode (BitVec.ofNat 40 w) = .ok i →
    step (s.withFetchWord 40 w) = exec i { s with
      inProgress := none, rspValid := true,
      hostEvents := s.hostEvents.dropWhile (· == .rstInFlight) }

/-- The step that completes an illegal word changes no register but STATUS, which becomes ILLEGAL_COMMAND
(R54, R95; the spec's own decision D4). That this one step also ends the command in progress and
asserts `rsp_valid` is the two-step transaction, the model's choice (log 1). -/
def Obligations.IllegalWordSetsOnlyStatus : Prop :=
  ∀ (s : State) (w : CommandWord) (e : IllegalWord), s.inProgress = some w →
    s.hostEvents.head? ≠ some .rstInFlight → decode w = .error e →
    step s = .next { s with inProgress := none, rspValid := true, status := 4#3 }

/-- An idle block accepts the driven command without changing a register, waits when nothing is driven,
and while a command is in progress takes no further command: it stays driven (R26, R108, R110; I8;
the spec's own decisions D1, D23; logs 1 and 2 are the model's choice). -/
def Obligations.BlockTakesOneCommandAtATime : Prop :=
  (∀ (s : State) (w : CommandWord) (rest : List HostEvent), cmdReady s = true →
    s.hostEvents = .command w :: rest →
    step s = .next { s with inProgress := some w, rspValid := false, hostEvents := rest }) ∧
  (∀ s : State, cmdReady s = true → s.hostEvents = [] → step s = .next s) ∧
  (∀ (s t : State) (w : CommandWord) (rest : List HostEvent), cmdReady s = false →
    s.hostEvents = .command w :: rest → step s = .next t →
    t.hostEvents = .command w :: rest ∧ cmdReady t = true)

/-- A reset gives every register its reset value and abandons a command in progress without a response
(R106, R107; the spec's own decision D12; the interface state after reset is the model's, logs 3 and
5). -/
def Obligations.ResetAbandonsAndRestores : Prop :=
  ∀ (s : State) (e : HostEvent) (rest : List HostEvent), s.hostEvents = e :: rest →
    (e = .rstInFlight ∨ (e = .rst ∧ s.inProgress = none)) →
    ∃ t, step s = .next t ∧ t = { State.reset with hostEvents := rest } ∧
      cmdReady t = true ∧ t.rspValid = false

/-- The reset value of every register (R107, the spec's own decision D12); the interface fields after
reset are the model's (log 5). -/
def Obligations.ResetValues : Prop :=
  State.reset.bAddrV = false ∧ State.reset.bAddr = 0x00#8 ∧ State.reset.bSpeedV = false ∧
  State.reset.bSpeed = 0x00#8 ∧ State.reset.bEstop = false ∧ State.reset.bDirV = false ∧
  State.reset.bDir = .forward ∧ State.reset.pktValid = false ∧ State.reset.pktAddr = 0x00#8 ∧
  State.reset.pktInstr = 0x00#8 ∧ (∀ p, p < 52 → readCell State.reset.bb p = false) ∧
  State.reset.len = 0#6 ∧ State.reset.status = 0#3 ∧ cmdReady State.reset = true ∧
  State.reset.rspValid = false

/-- An access past the buffer is the fault, and no step of the block performs one. R37 speaks of the
writes the block performs; that a `MemRead` past cell 51 faults as a write there does is the model's
(log 19, read from R34 and R37). -/
def Obligations.NoStepLeavesTheBuffer : Prop :=
  (∀ (s : State) (f : Fault), step s ≠ .fault f) ∧
  (∀ (p : Nat) (v : Bool) (m : Memory), 52 < p + 1 → bitSet p v m = .error .bufferOverrun) ∧
  (∀ (p n : Nat) (v : BitVec n) (m : Memory), 52 < p + n → memWrite p v m = .error .bufferOverrun) ∧
  (∀ (p n : Nat) (m : Memory), 52 < p + n → memRead p n m = .error .bufferOverrun)

/-- The block never stops: every command answers a next state, and so does every step (R92, the spec's
own decision D15). -/
def Obligations.BlockNeverStops : Prop :=
  (∀ (i : Instr) (s : State), ∃ t, exec i s = .next t) ∧ ∀ s : State, ∃ t, step s = .next t

/-- A driven command that no reset lands on is accepted and reaches `rsp_valid` (R26, R120; the spec's
own decision D24; two steps are the model's choice, log 1). -/
def Obligations.AcceptedCommandReachesItsResponse : Prop :=
  ∀ (s : State) (w : CommandWord) (rest : List HostEvent), s.inProgress = none →
    s.hostEvents = .command w :: rest → rest.head? ≠ some .rstInFlight →
    ∃ t u, step s = .next t ∧ t.rspValid = false ∧ step t = .next u ∧ u.rspValid = true ∧
      cmdReady u = true ∧ u.hostEvents = rest

/-- A finite list of commands runs to its end, gives one response each, and its effect is that of the
commands executed one after another, each seeing all effects of the earlier ones (R43; the end of a
run and its observations are R121, the spec's own decision D23). The list of driven words is the
model's choice (log 2), and so are the two steps each command takes (log 1). -/
def Obligations.CommandListRunsSequentially : Prop :=
  ∀ (ws : List CommandWord) (s : State), s.inProgress = none → s.hostEvents = ws.map .command →
    ∃ t, run (2 * ws.length) s = .next t ∧ runEnded t = true ∧
      (observations (2 * ws.length) s).length = ws.length ∧
      executeWords ws { s with hostEvents := [], rspValid := true } = .next { t with rspValid := true }

/-! ### Speed-and-Direction commands -/

/-- R70, R76: SET_ADDR stages an address in 1..127 and otherwise only raises INVALID_ADDRESS; its words;
and address 3 builds what an unset address builds. -/
def Obligations.SetAddrStagesAValidAddress : Prop :=
  (∀ a : Byte, addrValid a = true ↔ 1 ≤ a.toNat ∧ a.toNat ≤ 127) ∧
  (∀ (w : CommandWord) (a : Byte), decode w = .ok (.setAddr a) ↔
    w.extractLsb' 36 4 = 0x2#4 ∧ w.extractLsb' 8 28 = 0#28 ∧ w.extractLsb' 0 8 = a) ∧
  (∀ (a : Byte) (s : State), exec (.setAddr a) s = .next
    (if 1 ≤ a.toNat ∧ a.toNat ≤ 127 then { s with bAddr := a, bAddrV := true, status := 0#3 }
      else { s with status := 1#3 })) ∧
  (∀ s t u v : State, s.bAddrV = false → exec (.setAddr 3#8) s = .next t →
    exec .build s = .next u → exec .build t = .next v →
    v.pktAddr = u.pktAddr ∧ v.pktInstr = u.pktInstr)

/-- R71, R77: SET_SPEED stages a speed of at most 28 and otherwise only raises INVALID_SPEED; its words;
speed 0 is stop, speed field 0; and a stored e-stop overrides the new speed at BUILD. -/
def Obligations.SetSpeedStagesAValidSpeed : Prop :=
  (∀ sp : Byte, speedValid sp = true ↔ sp.toNat ≤ 28) ∧
  (∀ (w : CommandWord) (sp : Byte), decode w = .ok (.setSpeed sp) ↔
    w.extractLsb' 36 4 = 0x3#4 ∧ w.extractLsb' 8 28 = 0#28 ∧ w.extractLsb' 0 8 = sp) ∧
  (∀ (sp : Byte) (s : State), exec (.setSpeed sp) s = .next
    (if sp.toNat ≤ 28 then { s with bSpeed := sp, bSpeedV := true, status := 0#3 }
      else { s with status := 2#3 })) ∧
  speedField 0#8 = 0#5 ∧
  (∀ (sp : Byte) (s t u v : State), s.bEstop = true → exec (.setSpeed sp) s = .next t →
    exec .build s = .next u → exec .build t = .next v →
    v.pktAddr = u.pktAddr ∧ v.pktInstr = u.pktInstr)

/-- R78: SET_DIR stores the direction unconditionally (bit 1 is Forward); its words; and Forward builds
what an unset direction builds. -/
def Obligations.SetDirStoresTheDirection : Prop :=
  (∀ (w : CommandWord) (d : Direction), decode w = .ok (.setDir d) ↔
    w.extractLsb' 36 4 = 0x4#4 ∧ w.extractLsb' 1 35 = 0#35 ∧
      w.extractLsb' 0 1 = (if d = .forward then 1#1 else 0#1)) ∧
  (∀ (d : Direction) (s : State),
    exec (.setDir d) s = .next { s with bDir := d, bDirV := true, status := 0#3 }) ∧
  (∀ s t u v : State, s.bDirV = false → exec (.setDir .forward) s = .next t →
    exec .build s = .next u → exec .build t = .next v →
    v.pktAddr = u.pktAddr ∧ v.pktInstr = u.pktInstr)

/-- R79: SET_ESTOP stores the flag unconditionally; its words; and clearing the flag makes the stored
speed take effect again at the next BUILD. -/
def Obligations.SetEstopStoresTheFlag : Prop :=
  (∀ (w : CommandWord) (e : Bool), decode w = .ok (.setEstop e) ↔
    w.extractLsb' 36 4 = 0x5#4 ∧ w.extractLsb' 1 35 = 0#35 ∧
      w.extractLsb' 0 1 = (if e = true then 1#1 else 0#1)) ∧
  (∀ (e : Bool) (s : State), exec (.setEstop e) s = .next { s with bEstop := e, status := 0#3 }) ∧
  (∀ s t u v : State, exec (.setEstop true) s = .next t → exec (.setEstop false) t = .next u →
    exec .build u = .next v → v.pktInstr = instrByte (builderDir s) (builderSpeed s) false)

/-- R80, R81: BUILD writes the packet register from the builder, with the defaults 3, 0, Forward for
what was never set, and nothing else; its words; the default packet; the example's instruction byte;
and a second BUILD changes nothing. -/
def Obligations.BuildWritesThePacketRegister : Prop :=
  (∀ w : CommandWord, decode w = .ok .build ↔
    w.extractLsb' 36 4 = 0x6#4 ∧ w.extractLsb' 0 36 = 0#36) ∧
  (∀ s : State, exec .build s = .next { s with
    pktAddr := if s.bAddrV = true then s.bAddr else 3#8
    pktInstr := instrByte (if s.bDirV = true then s.bDir else .forward)
      (if s.bSpeedV = true then s.bSpeed else 0#8) s.bEstop
    pktValid := true
    status := 0#3 }) ∧
  (∀ s t : State, s.bAddrV = false → s.bSpeedV = false → s.bDirV = false → s.bEstop = false →
    exec .build s = .next t → t.pktAddr = 0x03#8 ∧ t.pktInstr = 0x60#8) ∧
  instrByte .forward 14#8 false = 0x78#8 ∧
  (∀ s t : State, exec .build s = .next t → exec .build t = .next t)

/-- R72, R73: the speed field is 0 or speed + 3 and never 1, 2 or 3; the instruction byte has its marker,
direction and speed or e-stop bits where the rule puts them, and equals the rule's closed form. -/
def Obligations.InstructionByteLayout : Prop :=
  ∀ (d : Direction) (sp : Byte) (e : Bool), sp.toNat ≤ 28 →
    (speedField sp).toNat = (if sp.toNat = 0 then 0 else sp.toNat + 3) ∧
    (speedField sp).toNat ∉ [1, 2, 3] ∧
    (instrByte d sp e).extractLsb' 6 2 = 0b01#2 ∧
    (instrByte d sp e).getLsbD 5 = decide (d = .forward) ∧
    (e = true → (instrByte d sp e).getLsbD 4 = false ∧
      (instrByte d sp e).extractLsb' 0 4 = 0b0001#4) ∧
    (e = false → (instrByte d sp e).getLsbD 4 = (speedField sp).getLsbD 0 ∧
      (instrByte d sp e).extractLsb' 0 4 = (speedField sp).extractLsb' 1 4) ∧
    instrByte d sp e = 0x40#8 ||| ((if d = .forward then 1#8 else 0#8) <<< 5) |||
      (if e = true then 0x01#8
        else (((speedField sp).setWidth 8 &&& 1#8) <<< 4) |||
          (((speedField sp).setWidth 8 >>> 1) &&& 0x0F#8))

/-- Under e-stop the byte is 0x61 or 0x41 whatever the speed, and no speed without e-stop has its low
five bits (R74: marked derived, with the spec's own decision D20 on bit 5). -/
def Obligations.EstopByteIgnoresTheSpeed : Prop :=
  (∀ sp : Byte, instrByte .forward sp true = 0x61#8 ∧ instrByte .backward sp true = 0x41#8) ∧
  (∀ (d : Direction) (sp : Byte), sp.toNat ≤ 28 →
    (instrByte d sp false).extractLsb' 0 5 ≠ 0b00001#5)

/-- SER_SD frames the packet register with its checksum and leaves the rest of the buffer, the packet and
the builder alone; its words (R82, with the spec's own decision D10). -/
def Obligations.SerSdFramesThePacketRegister : Prop :=
  (∀ w : CommandWord, decode w = .ok .serSd ↔
    w.extractLsb' 36 4 = 0x7#4 ∧ w.extractLsb' 0 36 = 0#36) ∧
  (∀ s : State, s.pktValid = true →
    ∃ m, exec .serSd s = .next { s with bb := m, len := 43#6, status := 0#3 } ∧
      CarriesPacket m [s.pktAddr, s.pktInstr, s.pktAddr ^^^ s.pktInstr] ∧
      ∀ q, 43 ≤ q → readCell m q = readCell s.bb q)

/-- SER_SD before any BUILD only raises NO_PACKET (R82, R96; the spec's own decision D10). -/
def Obligations.SerSdWithoutPacketRaises : Prop :=
  ∀ s : State, s.pktValid = false → exec .serSd s = .next { s with status := 5#3 }

/-- BUILD then SER_SD sends address, instruction byte and their exclusive-or in 43 bits, from every
state (R83, marked derived). -/
def Obligations.BuildThenSerSdSendsThePacket : Prop :=
  ∀ s : State, ∃ t u, exec .build s = .next t ∧ exec .serSd t = .next u ∧ u.len = 43#6 ∧
    memRead 16 8 u.bb = .ok (builderAddr s) ∧
    memRead 25 8 u.bb = .ok (instrByte (builderDir s) (builderSpeed s) s.bEstop) ∧
    memRead 34 8 u.bb =
      .ok (builderAddr s ^^^ instrByte (builderDir s) (builderSpeed s) s.bEstop)

/-- Setters of different fields may be issued in either order, and the last successful write to a field
wins (R84, marked derived). -/
def Obligations.SetterOrderDoesNotMatter : Prop :=
  (∀ (i j : Instr) (s t₁ u₁ t₂ u₂ : State), setterField i ≠ none → setterField j ≠ none →
    setterField i ≠ setterField j → exec i s = .next t₁ → exec j t₁ = .next u₁ →
    exec j s = .next t₂ → exec i t₂ = .next u₂ → u₁ = { u₂ with status := u₁.status }) ∧
  (∀ (i j : Instr) (s t u : State), setterField i ≠ none → setterField i = setterField j →
    exec i s = .next t → exec j t = .next u → u.status = 0#3 → exec j s = .next u)

/-- A setter does not change what SER_SD sends (R115, marked derived). -/
def Obligations.SettersDoNotChangeWhatIsSent : Prop :=
  ∀ (i : Instr) (s t u v : State), setterField i ≠ none → exec i s = .next t →
    exec .serSd s = .next u → exec .serSd t = .next v →
    v.bb = u.bb ∧ v.len = u.len ∧ v.status = u.status

/-! ### Framing and the bit buffer -/

/-- R62, R63: the framing procedure raises TOO_LONG exactly for payloads over 4 bytes, changing only
STATUS; for the others it writes the packet into the first 15 + 9N + 1 cells, leaves every other cell,
and completes with that length. -/
def Obligations.FramingProcedure : Prop :=
  ∀ (d : List Byte) (s : State),
    (15 + 9 * d.length + 1 ≤ 52 ↔ d.length ≤ 4) ∧
    (52 < 15 + 9 * d.length + 1 → frame d s = .next { s with status := 3#3 }) ∧
    (15 + 9 * d.length + 1 ≤ 52 →
      ∃ m, frame d s = .next { s with
          bb := m, len := BitVec.ofNat 6 (15 + 9 * d.length + 1), status := 0#3 } ∧
        CarriesPacket m d ∧
        ∀ q, 15 + 9 * d.length + 1 ≤ q → readCell m q = readCell s.bb q)

/-- R64: FRAME frames its first N byte fields for N at most 4, ignoring the others, and only raises
TOO_LONG for N of 5 or more; every word of opcode 1 is a FRAME. -/
def Obligations.FrameFramesTheFirstNBytes : Prop :=
  (∀ (w : CommandWord) (n : Nat) (b0 b1 b2 b3 : Byte), decode w = .ok (.frame n b0 b1 b2 b3) ↔
    w.extractLsb' 36 4 = 0x1#4 ∧ (w.extractLsb' 32 4).toNat = n ∧ w.extractLsb' 24 8 = b0 ∧
      w.extractLsb' 16 8 = b1 ∧ w.extractLsb' 8 8 = b2 ∧ w.extractLsb' 0 8 = b3) ∧
  (∀ (n : Nat) (b0 b1 b2 b3 : Byte) (s : State), n ≤ 4 →
    ∃ m, exec (.frame n b0 b1 b2 b3) s =
        .next { s with bb := m, len := BitVec.ofNat 6 (16 + 9 * n), status := 0#3 } ∧
      CarriesPacket m ([b0, b1, b2, b3].take n) ∧
      ∀ q, 16 + 9 * n ≤ q → readCell m q = readCell s.bb q) ∧
  (∀ (n : Nat) (b0 b1 b2 b3 : Byte) (s : State), 5 ≤ n →
    exec (.frame n b0 b1 b2 b3) s = .next { s with status := 3#3 })

/-- FRAME with N = 0 leaves 16 one bits and LEN 16 (R65, the spec's own decision D8). -/
def Obligations.FrameOfNoBytesIsSixteenOnes : Prop :=
  ∀ (b0 b1 b2 b3 : Byte) (s : State),
    ∃ m, exec (.frame 0 b0 b1 b2 b3) s = .next { s with bb := m, len := 16#6, status := 0#3 } ∧
      ∀ q, readCell m q = if q < 16 then true else readCell s.bb q

/-- R85, R86, R91: each fixed-packet command frames its constant payload in 43 bits, with its checksum
the exclusive-or of the first two bytes, reads no register, always ends with OK, and leaves the rest
of the buffer and every other register alone. -/
def Obligations.FixedPacketsFrameTheirConstants : Prop :=
  ∀ s : State, ∀ x ∈ [(Instr.serReset, 0x00#8, 0x00#8, 0x00#8), (.serIdle, 0xFF#8, 0x00#8, 0xFF#8),
      (.serBstopImm, 0x00#8, 0x40#8, 0x40#8), (.serBstopFloat, 0x00#8, 0x50#8, 0x50#8)],
    x.2.2.2 = x.2.1 ^^^ x.2.2.1 ∧
    ∃ m, exec x.1 s = .next { s with bb := m, len := 43#6, status := 0#3 } ∧
      CarriesPacket m [x.2.1, x.2.2.1, x.2.2.2] ∧
      ∀ q, 43 ≤ q → readCell m q = readCell s.bb q

/-- The two Broadcast-Stop packets differ at positions 28 and 37 only (a corner case of R90). -/
def Obligations.BroadcastStopKindsDifferInTwoCells : Prop :=
  ∀ s t u : State, exec .serBstopImm s = .next t → exec .serBstopFloat s = .next u →
    ∀ q, readCell t.bb q ≠ readCell u.bb q ↔ q = 28 ∨ q = 37

/-- BUF_CLEAR makes every cell 0 and LEN 0 and touches nothing else; from a buffer in canonical form
(the model's, log 6) it leaves the reset buffer; its words (R67, the spec's own decision D14). -/
def Obligations.BufClearClearsTheBuffer : Prop :=
  (∀ w : CommandWord, decode w = .ok .bufClear ↔
    w.extractLsb' 36 4 = 0xC#4 ∧ w.extractLsb' 0 36 = 0#36) ∧
  (∀ s : State, ∃ m, exec .bufClear s = .next { s with bb := m, len := 0#6, status := 0#3 } ∧
    (∀ q, readCell m q = if q < 52 then false else readCell s.bb q) ∧
    (Memory.wf s.bb = true → m = State.reset.bb))

/-- After FRAME of 1 to 4 bytes the host reads back 15 ones, each payload byte at 16 + 9k, and the stop
bit (R68, marked derived; R69: the last byte as given, whatever it is). -/
def Obligations.FramedBytesReadBack : Prop :=
  ∀ (n : Nat) (b0 b1 b2 b3 : Byte) (s : State), 1 ≤ n → n ≤ 4 →
    ∃ t, exec (.frame n b0 b1 b2 b3) s = .next t ∧ t.len.toNat = 16 + 9 * n ∧
      memRead 0 15 t.bb = .ok 0x7FFF#15 ∧ readCell t.bb 15 = false ∧
      readCell t.bb (t.len.toNat - 1) = true ∧
      ∀ k, k < n → memRead (16 + 9 * k) 8 t.bb = .ok ([b0, b1, b2, b3].getD k 0#8)

/-- The byte view of every framed packet of at least one byte, whichever command framed it, begins FF FE
and the first payload byte; it does so after FRAME of 1 to 4 bytes; and the low nibble of its last byte
always reads 0 (R35, the spec's own decision D13). -/
def Obligations.ByteViewOfAFramedPacket : Prop :=
  (∀ (m : Memory) (b : Byte) (d : List Byte), CarriesPacket m (b :: d) →
    byteView 0 m = .ok 0xFF#8 ∧ byteView 1 m = .ok 0xFE#8 ∧ byteView 2 m = .ok b) ∧
  (∀ (n : Nat) (b0 b1 b2 b3 : Byte) (s : State), 1 ≤ n → n ≤ 4 →
    ∃ t, exec (.frame n b0 b1 b2 b3) s = .next t ∧ byteView 0 t.bb = .ok 0xFF#8 ∧
      byteView 1 t.bb = .ok 0xFE#8 ∧ byteView 2 t.bb = .ok b0) ∧
  (∀ m : Memory, ∃ b, byteView 6 m = .ok b ∧ b.extractLsb' 0 4 = 0#4)

/-- R66: the checksum is the exclusive-or of all bytes, in any order; of two bytes it is 0 exactly when
they are equal; and the three bytes of a baseline payload cancel. -/
def Obligations.ChecksumIsTheExclusiveOr : Prop :=
  checksum [] = 0x00#8 ∧
  (∀ (d : List Byte) (b : Byte), checksum (d ++ [b]) = checksum d ^^^ b) ∧
  (∀ a i : Byte, checksum [a, i] = a ^^^ i ∧ (checksum [a, i] = 0#8 ↔ a = i) ∧
    checksum (baselinePayload a i) = 0#8) ∧
  (∀ d d' : List Byte, d.Perm d' → checksum d = checksum d')

/-- R32, R33: BitSet writes one cell; MemWrite puts the MSB of its value at the lowest position; every
other cell keeps its value; and a one-bit MemWrite is a BitSet. -/
def Obligations.BufferWritesAreMsbFirst : Prop :=
  (∀ (p : Nat) (v : Bool) (m : Memory), p ≤ 51 → ∃ m', bitSet p v m = .ok m' ∧
    ∀ q, readCell m' q = if q = p then v else readCell m q) ∧
  (∀ (p n : Nat) (v : BitVec n) (m : Memory), 1 ≤ n → p + n ≤ 52 → ∃ m', memWrite p v m = .ok m' ∧
    (∀ j, j < n → readCell m' (p + j) = v.getLsbD (n - 1 - j)) ∧
    ∀ q, q < p ∨ p + n ≤ q → readCell m' q = readCell m q) ∧
  (∀ (p : Nat) (v : Bool) (m : Memory), memWrite p (BitVec.ofBool v) m = bitSet p v m)

/-- MemRead is the sum of the cells with their weights, `BB[p]` the MSB, and no command reads `BB`:
whatever the buffer holds, it ends alike, and each cell is left as it was or given the same value (R34).
That MemRead reads back what MemWrite wrote is an inference from R33 and R34; at width 0, which both
rules exclude, it is the model's (log 19). -/
def Obligations.MemReadIsTheWeightedSum : Prop :=
  (∀ (p n : Nat) (m : Memory), 1 ≤ n → p + n ≤ 52 → ∃ v : BitVec n, memRead p n m = .ok v ∧
    v.toNat = ∑ j ∈ Finset.range n, (readCell m (p + j)).toNat * 2 ^ (n - 1 - j)) ∧
  (∀ (p n : Nat) (v : BitVec n) (m m' : Memory), memWrite p v m = .ok m' →
    memRead p n m' = .ok v) ∧
  (∀ (i : Instr) (s t u : State) (m : Memory), exec i s = .next t →
    exec i { s with bb := m } = .next u → u = { t with bb := u.bb } ∧
      ∀ q, (readCell t.bb q = readCell s.bb q ∧ readCell u.bb q = readCell m q) ∨
        readCell t.bb q = readCell u.bb q)

/-! ### Whole-machine rules -/

/-- The reset state meets the invariant (R12, R13, R20, R23, R94, with the model's canonical form, log 6,
and its interface state, log 1). -/
def Obligations.ResetMeetsTheInvariant : Prop := StateInvariant State.reset

/-- Every step keeps the invariant: the staged fields and the packet register hold only what the spec
lets them hold, `BB[0..LEN)` is a whole frame, and STATUS is a status code (R12, R13, R20, R23, R94,
R118; the canonical form and the interface state are the model's, logs 6 and 1). -/
def Obligations.StepKeepsTheInvariant : Prop :=
  ∀ s t : State, StateInvariant s → step s = .next t → StateInvariant t

/-- R19: without a reset a valid bit stays set, and a command that fails leaves the builder unchanged. -/
def Obligations.ValidBitsStaySetUntilReset : Prop :=
  (∀ s t : State, step s = .next t → s.hostEvents.head? ≠ some .rstInFlight →
    ¬(s.inProgress = none ∧ s.hostEvents.head? = some .rst) →
    (s.bAddrV = true → t.bAddrV = true) ∧ (s.bSpeedV = true → t.bSpeedV = true) ∧
    (s.bDirV = true → t.bDirV = true)) ∧
  (∀ (i : Instr) (s t : State), exec i s = .next t → t.status ≠ 0#3 →
    t.bAddr = s.bAddr ∧ t.bAddrV = s.bAddrV ∧ t.bSpeed = s.bSpeed ∧ t.bSpeedV = s.bSpeedV ∧
    t.bEstop = s.bEstop ∧ t.bDir = s.bDir ∧ t.bDirV = s.bDirV)

/-- R97: `raise` writes STATUS and nothing else, and so does every command and every word that ends with
an error. -/
def Obligations.ErrorsWriteOnlyStatus : Prop :=
  (∀ (e : StatusCode) (s : State), raise e s = .next { s with status := e.number }) ∧
  (∀ (i : Instr) (s t : State), exec i s = .next t → t.status ≠ 0#3 →
    t = { s with status := t.status }) ∧
  (∀ (w : CommandWord) (s t : State), executeWord w s = .next t → t.status ≠ 0#3 →
    t = { s with status := t.status })

/-- Each register is written only by the commands the table of R10 names, each builder field only by
its own setter (R10, R18, R20, R22, R23; the spec's own decision D6). That the meaning of a command
leaves the handshake and the host's events alone is the model's own split: `step` accepts and
completes a command around `exec` (logs 1 and 2). -/
def Obligations.RegistersHaveTheirOwnWriters : Prop :=
  ∀ (i : Instr) (s t : State), exec i s = .next t →
    (setterField i ≠ some .addr → t.bAddr = s.bAddr ∧ t.bAddrV = s.bAddrV) ∧
    (setterField i ≠ some .speed → t.bSpeed = s.bSpeed ∧ t.bSpeedV = s.bSpeedV) ∧
    (setterField i ≠ some .dir → t.bDir = s.bDir ∧ t.bDirV = s.bDirV) ∧
    (setterField i ≠ some .estop → t.bEstop = s.bEstop) ∧
    (i ≠ .build → t.pktAddr = s.pktAddr ∧ t.pktInstr = s.pktInstr ∧ t.pktValid = s.pktValid) ∧
    (mayWriteBuffer i = false → t.bb = s.bb ∧ t.len = s.len) ∧
    t.inProgress = s.inProgress ∧ t.rspValid = s.rspValid ∧ t.hostEvents = s.hostEvents

/-- STATUS after a command names its outcome: each error code exactly for its cause, never
ILLEGAL_COMMAND from a legal command, never 6 or 7 (R94, R98; the spec's own decisions D5, D22). -/
def Obligations.StatusNamesTheOutcome : Prop :=
  ∀ (i : Instr) (s t : State), exec i s = .next t →
    (t.status = 1#3 ↔ ∃ a, i = .setAddr a ∧ (a.toNat = 0 ∨ 128 ≤ a.toNat)) ∧
    (t.status = 2#3 ↔ ∃ sp, i = .setSpeed sp ∧ 29 ≤ sp.toNat) ∧
    (t.status = 3#3 ↔ ∃ n b0 b1 b2 b3, i = .frame n b0 b1 b2 b3 ∧ 5 ≤ n) ∧
    (t.status = 5#3 ↔ i = .serSd ∧ s.pktValid = false) ∧
    t.status ≠ 4#3 ∧ t.status ≠ 6#3 ∧ t.status ≠ 7#3

/-- The host sees the builder only through what BUILD makes of it: two states that agree on that, and on
everything the host reads and drives, read alike and stay so whatever the host does; in particular
speed 0, Forward and address 3 cannot be told from fields never set (R27, marked derived; I6). That two
reads of one number agree outside `rsp_valid` too is the model's choice: its free values depend on the
number of the read alone (log 4), where R111 and I4 allow any value. -/
def Obligations.HostSeesTheBuilderOnlyThroughBuild : Prop :=
  (∀ s t : State, HostAgree s t → (∀ k, readOutputs k s = readOutputs k t) ∧
    ∃ s' t', step s = .next s' ∧ step t = .next t' ∧ HostAgree s' t') ∧
  (∀ s t : State, s.status = 0#3 →
    (s.bSpeedV = false ∧ exec (.setSpeed 0#8) s = .next t) ∨
    (s.bDirV = false ∧ exec (.setDir .forward) s = .next t) ∨
    (s.bAddrV = false ∧ exec (.setAddr 3#8) s = .next t) → HostAgree s t)

/-- While `rsp_valid` is asserted every read of the ports shows the registers, the same each time (R25,
R112). Nothing is said of a read outside it: R111 leaves it open. -/
def Obligations.OutputPortsShowTheRegisters : Prop :=
  ∀ (s : State) (k : Nat), s.rspValid = true →
    (readOutputs k s).status = s.status ∧ (readOutputs k s).len = s.len ∧
    (∀ (p : Nat) (hp : p < 52), (readOutputs k s).bufOut[p] = readCell s.bb p) ∧
    (readOutputs k s).pktValid = s.pktValid ∧ (readOutputs k s).pktAddr = s.pktAddr ∧
    (readOutputs k s).pktInstr = s.pktInstr

/-- A step of one instance leaves every other instance as it is and is that instance's own step (R104,
the spec's own decision D17; the list of instances is the model's, log 11). -/
def Obligations.InstancesAreIndependent : Prop :=
  (∀ (p q : Platform) (j k : Nat), platformStep k p = .next q → j ≠ k → q[j]? = p[j]?) ∧
  (∀ (p : Platform) (k : Nat) (s t : State), p[k]? = some s → step s = .next t →
    ∃ q, platformStep k p = .next q ∧ q[k]? = some t)

/-- Direction inversion is the logical NOT of the direction's bit, and its own inverse (R75, the spec's
own decision D18). -/
def Obligations.OppositeInvertsTheDirectionBit : Prop :=
  ∀ d : Direction, (opposite d).toBit = ~~~ d.toBit ∧ opposite (opposite d) = d

/-! ### The assembler -/

/-- The assembler reproduces every command's word from its spelling with all operands, and no other such
line gives the word (R61, marked derived, with the spec's own decision D21). -/
def Obligations.AssemblerReproducesEveryWord : Prop :=
  (∀ i : Instr, i.wellFormed = true → assemble (disassemble i) = some [encode i]) ∧
  (∀ (l : AsmLine) (w : CommandWord) (i : Instr), decode w = .ok i → assemble l = some [w] →
    (∀ n bs, l = .frame n bs → bs.length = 4) → (∀ x y, l ≠ .frame3c x y) → l = disassemble i)

/-- The assembler emits legal words only and rejects operands out of range, those of the pseudo-instructions
too, and more than four byte operands (R57, R58, the spec's own decision D21). -/
def Obligations.AssemblerEmitsLegalWordsOnly : Prop :=
  (∀ (l : AsmLine) (ws : List CommandWord), assemble l = some ws →
    ∀ w ∈ ws, ∃ i, decode w = .ok i) ∧
  (∀ (n : Nat) (bs : List Nat), 15 < n ∨ 4 < bs.length ∨ (∃ b ∈ bs, 255 < b) →
    assemble (.frame n bs) = none) ∧
  (∀ a : Nat, 255 < a → assemble (.setAddr a) = none ∧ assemble (.setSpeed a) = none) ∧
  (∀ e : Nat, 1 < e → assemble (.setEstop e) = none) ∧
  (∀ (a sp e : Nat) (d : Direction), 255 < a ∨ 255 < sp ∨ 1 < e →
    assemble (.sendSd a sp d e) = none) ∧
  (∀ x y : Nat, 255 < x ∨ 255 < y → assemble (.frame3c x y) = none)

/-- FRAME3C frames the bits of the baseline packet of its two bytes (R58, R59: the spec's own decision
D21, marked derived). -/
def Obligations.Frame3cFramesABaselinePacket : Prop :=
  ∀ x y : Nat, x ≤ 255 → y ≤ 255 → ∃ w, assemble (.frame3c x y) = some [w] ∧
    ∀ s : State, executeWord w s = frame (baselinePayload (BitVec.ofNat 8 x) (BitVec.ofNat 8 y)) s

/-- SEND_SD stages its operands, builds and sends: afterwards the builder holds each operand whose setter
succeeds; a setter that fails leaves its field as it was, and the earlier or default value is then the
one sent (R58, the spec's own decision D21). -/
def Obligations.SendSdSendsTheStagedPacket : Prop :=
  ∀ (a sp e : Nat) (d : Direction), a ≤ 255 → sp ≤ 255 → e ≤ 1 →
    ∃ ws, assemble (.sendSd a sp d e) = some ws ∧ ∀ s : State, ∃ t, executeWords ws s = .next t ∧
      t.len = 43#6 ∧ t.status = 0#3 ∧
      t.bAddr = (if 1 ≤ a ∧ a ≤ 127 then BitVec.ofNat 8 a else s.bAddr) ∧
      t.bAddrV = (if 1 ≤ a ∧ a ≤ 127 then true else s.bAddrV) ∧
      t.bSpeed = (if sp ≤ 28 then BitVec.ofNat 8 sp else s.bSpeed) ∧
      t.bSpeedV = (if sp ≤ 28 then true else s.bSpeedV) ∧
      t.bDir = d ∧ t.bDirV = true ∧ t.bEstop = decide (e = 1) ∧ t.pktValid = true ∧
      t.pktAddr = (if 1 ≤ a ∧ a ≤ 127 then BitVec.ofNat 8 a else builderAddr s) ∧
      t.pktInstr =
        instrByte d (if sp ≤ 28 then BitVec.ofNat 8 sp else builderSpeed s) (decide (e = 1)) ∧
      CarriesPacket t.bb [t.pktAddr, t.pktInstr, t.pktAddr ^^^ t.pktInstr] ∧
      ∀ q, 43 ≤ q → readCell t.bb q = readCell s.bb q
end

