-- ==== Sys2Proof/Laws/Decode.lean ====
section
/-! SUPPORT. Decoding said once per opcode, and reading a field back from words laid side by side. -/

namespace Sys2Proof

/-- A field that lies inside the low part of two words laid side by side. -/
theorem extract_append_low {m n : Nat} (x : BitVec m) (y : BitVec n) {lo k : Nat} (h : lo + k ≤ n) :
    (x ++ y).extractLsb' lo k = y.extractLsb' lo k := by
  ext i hi
  have : lo + i < n := by omega
  simp [BitVec.getElem_extractLsb', BitVec.getLsbD_append, this]

/-- A field that lies inside the high part of two words laid side by side. -/
theorem extract_append_high {m n : Nat} (x : BitVec m) (y : BitVec n) {lo k : Nat} (h : n ≤ lo) :
    (x ++ y).extractLsb' lo k = x.extractLsb' (lo - n) k := by
  ext i hi
  have h1 : ¬ lo + i < n := by omega
  have h2 : lo + i - n = lo - n + i := by omega
  simp [BitVec.getElem_extractLsb', BitVec.getLsbD_append, h1, h2]

/-- FRAME is well-formed exactly when its count fits the field. -/
theorem Instr.wellFormed_frame {n : Nat} {b0 b1 b2 b3 : Byte} :
    (Instr.frame n b0 b1 b2 b3).wellFormed = true ↔ n ≤ 15 :=
  ⟨of_decide_eq_true, fun h => decide_eq_true h⟩

theorem Direction.ofBit_toBit (d : Direction) : Direction.ofBit d.toBit = d := by
  cases d <;> rfl

theorem Direction.toBit_ofBit (b : BitVec 1) : (Direction.ofBit b).toBit = b := by
  revert b; decide

theorem whenZero_eq_ok {w : CommandWord} {lo n : Nat} {i j : Instr} :
    whenZero w lo n i = .ok j ↔ w.extractLsb' lo n = 0#n ∧ i = j := by
  unfold whenZero
  split <;> simp_all

theorem decode_opcode_frame {w : CommandWord} (h : w.extractLsb' 36 4 = 0x1#4) :
    decode w = .ok (.frame (w.extractLsb' 32 4).toNat (w.extractLsb' 24 8) (w.extractLsb' 16 8)
      (w.extractLsb' 8 8) (w.extractLsb' 0 8)) := by
  simp only [decode, h]; rfl

theorem decode_opcode_setAddr {w : CommandWord} (h : w.extractLsb' 36 4 = 0x2#4) :
    decode w = whenZero w 8 28 (.setAddr (w.extractLsb' 0 8)) := by
  simp only [decode, h]; rfl

theorem decode_opcode_setSpeed {w : CommandWord} (h : w.extractLsb' 36 4 = 0x3#4) :
    decode w = whenZero w 8 28 (.setSpeed (w.extractLsb' 0 8)) := by
  simp only [decode, h]; rfl

theorem decode_opcode_setDir {w : CommandWord} (h : w.extractLsb' 36 4 = 0x4#4) :
    decode w = whenZero w 1 35 (.setDir (Direction.ofBit (w.extractLsb' 0 1))) := by
  simp only [decode, h]; rfl

theorem decode_opcode_setEstop {w : CommandWord} (h : w.extractLsb' 36 4 = 0x5#4) :
    decode w = whenZero w 1 35 (.setEstop (w.extractLsb' 0 1 = 1#1)) := by
  simp only [decode, h]; rfl

theorem decode_opcode_build {w : CommandWord} (h : w.extractLsb' 36 4 = 0x6#4) :
    decode w = whenZero w 0 36 .build := by
  simp only [decode, h]; rfl

theorem decode_opcode_serSd {w : CommandWord} (h : w.extractLsb' 36 4 = 0x7#4) :
    decode w = whenZero w 0 36 .serSd := by
  simp only [decode, h]; rfl

theorem decode_opcode_serReset {w : CommandWord} (h : w.extractLsb' 36 4 = 0x8#4) :
    decode w = whenZero w 0 36 .serReset := by
  simp only [decode, h]; rfl

theorem decode_opcode_serIdle {w : CommandWord} (h : w.extractLsb' 36 4 = 0x9#4) :
    decode w = whenZero w 0 36 .serIdle := by
  simp only [decode, h]; rfl

theorem decode_opcode_serBstopImm {w : CommandWord} (h : w.extractLsb' 36 4 = 0xA#4) :
    decode w = whenZero w 0 36 .serBstopImm := by
  simp only [decode, h]; rfl

theorem decode_opcode_serBstopFloat {w : CommandWord} (h : w.extractLsb' 36 4 = 0xB#4) :
    decode w = whenZero w 0 36 .serBstopFloat := by
  simp only [decode, h]; rfl

theorem decode_opcode_bufClear {w : CommandWord} (h : w.extractLsb' 36 4 = 0xC#4) :
    decode w = whenZero w 0 36 .bufClear := by
  simp only [decode, h]; rfl

/-- The reserved opcodes of R55. -/
theorem decode_opcode_reserved {w : CommandWord}
    (h : w.extractLsb' 36 4 ∈ [0x0#4, 0xD#4, 0xE#4, 0xF#4]) :
    decode w = .error .reservedOpcode := by
  simp only [List.mem_cons, List.not_mem_nil, or_false] at h
  rcases h with h | h | h | h <;> simp only [decode, h] <;> rfl

/-- The sixteen values of the opcode field. -/
theorem opcode_values (o : BitVec 4) :
    o ∈ [0x0#4, 0xD#4, 0xE#4, 0xF#4] ∨ o = 0x1#4 ∨ o = 0x2#4 ∨ o = 0x3#4 ∨ o = 0x4#4 ∨ o = 0x5#4 ∨
      o = 0x6#4 ∨ o = 0x7#4 ∨ o = 0x8#4 ∨ o = 0x9#4 ∨ o = 0xA#4 ∨ o = 0xB#4 ∨ o = 0xC#4 := by
  revert o; decide

end Sys2Proof
end

