-- ==== Sys2Proof/Laws/Flags.lean ====
section
/-! SUPPORT. The operand checks as the inequalities of the spec. -/

namespace Sys2Proof.Machine

theorem addrValid_iff {a : Byte} : addrValid a = true ↔ 1 ≤ a.toNat ∧ a.toNat ≤ 127 := by
  simp [addrValid]

theorem speedValid_iff {sp : Byte} : speedValid sp = true ↔ sp.toNat ≤ 28 := by
  simp [speedValid]

theorem countTooLong_iff {n : Nat} : countTooLong n = true ↔ 5 ≤ n := by
  simp [countTooLong]

end Sys2Proof.Machine
end

