-- ==== Sys2Proof/Laws/Memory.lean ====
section
/-! SUPPORT. The laws of the bit buffer: what a write leaves readable, that every operation keeps the
canonical form, that equal contents are equal data, and what the checked operations answer. -/

namespace Sys2Proof.Machine

/-! ### Reading after writing -/

theorem readCell_filter_ne (m : Memory) (p q : Nat) (h : q ≠ p) :
    readCell (m.filter (fun c => c.1 != p)) q = readCell m q := by
  induction m with
  | nil => rfl
  | cons c rest ih =>
    obtain ⟨r, v⟩ := c
    by_cases hr : r = p
    · subst hr
      simp [readCell, ih, Ne.symm h]
    · simp [hr, readCell, ih]

theorem readCell_filter_self (m : Memory) (p : Nat) :
    readCell (m.filter (fun c => c.1 != p)) p = false := by
  induction m with
  | nil => rfl
  | cons c rest ih =>
    obtain ⟨r, v⟩ := c
    by_cases hr : r = p <;> simp [hr, readCell, ih]

theorem readCell_insertCell (m : Memory) (p q : Nat) (v : Bool)
    (h : ∀ c ∈ m, c.1 ≠ p) :
    readCell (insertCell p v m) q = if q = p then v else readCell m q := by
  induction m with
  | nil => simp [insertCell, readCell, eq_comm]
  | cons c rest ih =>
    obtain ⟨r, w⟩ := c
    have hr : r ≠ p := h (r, w) (by simp)
    have ih := ih (fun c hc => h c (by simp [hc]))
    by_cases hpr : p < r
    · simp [insertCell, hpr, readCell, eq_comm]
    · by_cases hrq : r = q
      · subst hrq
        simp [insertCell, hpr, readCell, hr]
      · simp [insertCell, hpr, readCell, hrq, ih]

/-- A read after a write: the bit written at its position, the earlier bit everywhere else. -/
theorem readCell_writeCell (m : Memory) (p q : Nat) (v : Bool) :
    readCell (writeCell m p v) q = if q = p then v else readCell m q := by
  unfold writeCell
  by_cases hv : v = Config.unlistedCell
  · simp only [hv, if_true]
    by_cases hq : q = p
    · subst hq
      simp [readCell_filter_self, Config.unlistedCell]
    · simp [hq, readCell_filter_ne _ _ _ hq]
  · simp only [hv, if_false]
    rw [readCell_insertCell _ _ _ _ (by simp)]
    by_cases hq : q = p
    · simp [hq]
    · simp [hq, readCell_filter_ne _ _ _ hq]

/-- A read after a run of writes. -/
theorem readCell_writeCells (bs : List Bool) (m : Memory) (p q : Nat) :
    readCell (writeCells m p bs) q =
      if p ≤ q ∧ q < p + bs.length then bs.getD (q - p) false else readCell m q := by
  induction bs generalizing m p with
  | nil => simp [writeCells]; omega
  | cons b bs ih =>
    simp only [writeCells, ih, readCell_writeCell, List.length_cons]
    by_cases hq : q = p
    · subst hq
      simp
    · by_cases hin : p + 1 ≤ q ∧ q < p + 1 + bs.length
      · have hqp : q - p = (q - (p + 1)) + 1 := by omega
        have : p ≤ q ∧ q < p + (bs.length + 1) := by omega
        rw [if_pos hin, if_pos this, hqp]
        rfl
      · have : ¬(p ≤ q ∧ q < p + (bs.length + 1)) := by omega
        rw [if_neg hin, if_neg this, if_neg hq]

@[simp] theorem length_msbFirst {n : Nat} (v : BitVec n) : (msbFirst v).length = n := by
  simp [msbFirst]

theorem getD_msbFirst {n : Nat} (v : BitVec n) (j : Nat) :
    (msbFirst v).getD j false = v.getMsbD j := by
  by_cases hj : j < n
  · simp [msbFirst, List.getD, hj]
  · simp [msbFirst, List.getD, hj, BitVec.getMsbD]

/-! ### The canonical form -/

theorem Memory.wfFrom_mono {m : Memory} {lo lo' : Nat} (h : lo ≤ lo')
    (hm : Memory.wfFrom lo' m = true) : Memory.wfFrom lo m = true := by
  cases m with
  | nil => rfl
  | cons c rest =>
    simp only [Memory.wfFrom, Bool.and_eq_true, decide_eq_true_eq] at hm ⊢
    exact ⟨⟨⟨by omega, hm.1.1.2⟩, hm.1.2⟩, hm.2⟩

theorem Memory.wfFrom_filter {m : Memory} {lo : Nat} (p : Nat) (hm : Memory.wfFrom lo m = true) :
    Memory.wfFrom lo (m.filter (fun c => c.1 != p)) = true := by
  induction m generalizing lo with
  | nil => rfl
  | cons c rest ih =>
    obtain ⟨r, v⟩ := c
    simp only [Memory.wfFrom, Bool.and_eq_true, decide_eq_true_eq] at hm
    by_cases hr : r = p
    · simp only [hr, bne_self_eq_false, Bool.false_eq_true, not_false_eq_true,
        List.filter_cons_of_neg]
      exact Memory.wfFrom_mono (by omega) (ih hm.2)
    · simp only [bne_iff_ne, ne_eq, hr, not_false_eq_true, List.filter_cons_of_pos,
        Memory.wfFrom, Bool.and_eq_true, decide_eq_true_eq]
      exact ⟨⟨hm.1.1, by simpa using hm.1.2⟩, ih hm.2⟩

theorem Memory.wfFrom_insertCell {m : Memory} {lo p : Nat} {v : Bool} (hlo : lo ≤ p)
    (hp : p < Config.capacity) (hv : v ≠ Config.unlistedCell) (hne : ∀ c ∈ m, c.1 ≠ p)
    (hm : Memory.wfFrom lo m = true) : Memory.wfFrom lo (insertCell p v m) = true := by
  induction m generalizing lo with
  | nil => simp [insertCell, Memory.wfFrom, hlo, hp, hv]
  | cons c rest ih =>
    obtain ⟨r, w⟩ := c
    simp only [Memory.wfFrom, Bool.and_eq_true, decide_eq_true_eq] at hm
    have hr : r ≠ p := hne (r, w) (by simp)
    by_cases hpr : p < r
    · simp only [insertCell, hpr, if_true, Memory.wfFrom, Bool.and_eq_true, decide_eq_true_eq]
      exact ⟨⟨⟨hlo, hp⟩, by simpa using hv⟩, ⟨⟨by omega, hm.1.1.2⟩, hm.1.2⟩, hm.2⟩
    · simp only [insertCell, hpr, if_false, Memory.wfFrom, Bool.and_eq_true, decide_eq_true_eq]
      exact ⟨hm.1, ih (by omega) (fun c hc => hne c (by simp [hc])) hm.2⟩

/-- A write inside the buffer keeps the canonical form. -/
theorem Memory.wf_writeCell {m : Memory} {p : Nat} {v : Bool} (hp : p < Config.capacity)
    (hm : Memory.wf m = true) : Memory.wf (writeCell m p v) = true := by
  unfold Memory.wf writeCell at *
  by_cases hv : v = Config.unlistedCell
  · simpa [hv] using Memory.wfFrom_filter p hm
  · simpa [hv] using
      Memory.wfFrom_insertCell (by omega) hp hv (by simp) (Memory.wfFrom_filter p hm)

/-- A run of writes inside the buffer keeps the canonical form. -/
theorem Memory.wf_writeCells {bs : List Bool} {m : Memory} {p : Nat}
    (hp : p + bs.length ≤ Config.capacity) (hm : Memory.wf m = true) :
    Memory.wf (writeCells m p bs) = true := by
  induction bs generalizing m p with
  | nil => exact hm
  | cons b bs ih =>
    simp only [List.length_cons] at hp
    exact ih (by omega) (Memory.wf_writeCell (by omega) hm)

theorem readCell_eq_false_of_wfFrom {m : Memory} {lo p : Nat} (hp : p < lo)
    (hm : Memory.wfFrom lo m = true) : readCell m p = false := by
  induction m generalizing lo with
  | nil => rfl
  | cons c rest ih =>
    obtain ⟨r, v⟩ := c
    simp only [Memory.wfFrom, Bool.and_eq_true, decide_eq_true_eq] at hm
    rw [readCell, if_neg (by omega)]
    exact ih (by omega) hm.2

/-- A buffer in canonical form names no cell past its end. -/
theorem readCell_eq_false_of_capacity_le {m : Memory} {lo p : Nat} (hp : Config.capacity ≤ p)
    (hm : Memory.wfFrom lo m = true) : readCell m p = false := by
  induction m generalizing lo with
  | nil => rfl
  | cons c rest ih =>
    obtain ⟨r, v⟩ := c
    simp only [Memory.wfFrom, Bool.and_eq_true, decide_eq_true_eq] at hm
    rw [readCell, if_neg (by omega)]
    exact ih hm.2

theorem Memory.ext_of_wfFrom {m m' : Memory} {lo lo' : Nat} (hm : Memory.wfFrom lo m = true)
    (hm' : Memory.wfFrom lo' m' = true) (h : ∀ p, readCell m p = readCell m' p) : m = m' := by
  induction m generalizing lo lo' m' with
  | nil =>
    cases m' with
    | nil => rfl
    | cons c' rest' =>
      obtain ⟨r', v'⟩ := c'
      simp only [Memory.wfFrom, Config.unlistedCell, Bool.and_eq_true, decide_eq_true_eq] at hm'
      have hr := h r'
      simp only [readCell, Config.unlistedCell, if_true] at hr
      simp [← hr] at hm'
  | cons c rest ih =>
    obtain ⟨r, v⟩ := c
    simp only [Memory.wfFrom, Config.unlistedCell, Bool.and_eq_true, decide_eq_true_eq] at hm
    have hv : v = true := by simpa using hm.1.2
    cases m' with
    | nil =>
      have hr := h r
      simp [readCell, Config.unlistedCell, hv] at hr
    | cons c' rest' =>
      obtain ⟨r', v'⟩ := c'
      simp only [Memory.wfFrom, Config.unlistedCell, Bool.and_eq_true, decide_eq_true_eq] at hm'
      have hv' : v' = true := by simpa using hm'.1.2
      have hle : ¬ r < r' := by
        intro hlt
        have hr := h r
        rw [readCell, if_pos rfl, readCell, if_neg (by omega),
          readCell_eq_false_of_wfFrom (by omega) hm'.2, hv] at hr
        cases hr
      have hge : ¬ r' < r := by
        intro hlt
        have hr := h r'
        rw [readCell, if_neg (by omega), readCell_eq_false_of_wfFrom (by omega) hm.2, readCell,
          if_pos rfl, hv'] at hr
        cases hr
      have hrr : r = r' := by omega
      subst hrr
      have hrest : rest = rest' := by
        refine ih hm.2 hm'.2 (fun p => ?_)
        by_cases hp : r = p
        · subst hp
          rw [readCell_eq_false_of_wfFrom (by omega) hm.2,
            readCell_eq_false_of_wfFrom (by omega) hm'.2]
        · have hp' := h p
          simpa [readCell, hp] using hp'
      rw [hv, hv', hrest]

/-- Buffers in canonical form that read alike are the same data. -/
theorem Memory.ext_of_wf {m m' : Memory} (hm : Memory.wf m = true) (hm' : Memory.wf m' = true)
    (h : ∀ p, readCell m p = readCell m' p) : m = m' :=
  Memory.ext_of_wfFrom hm hm' h

/-! ### The checked operations -/

theorem bitSet_ok {p : Nat} (hp : p < Config.capacity) (v : Bool) (m : Memory) :
    bitSet p v m = .ok (writeCell m p v) := by
  have : p + 1 ≤ Config.capacity := hp
  simp [bitSet, inBuffer, this]

theorem memWrite_ok {p n : Nat} (hp : p + n ≤ Config.capacity) (v : BitVec n) (m : Memory) :
    memWrite p v m = .ok (writeCells m p (msbFirst v)) := by
  simp [memWrite, inBuffer, hp]

/-- Everything a `BitSet` that answers can do. -/
theorem bitSet_cases {p : Nat} {v : Bool} {m m' : Memory} (h : bitSet p v m = .ok m') :
    p < Config.capacity ∧ m' = writeCell m p v := by
  unfold bitSet inBuffer at h
  split at h
  · rename_i hp
    exact ⟨by simpa using hp, by cases h; rfl⟩
  · cases h

/-- Everything a `MemWrite` that answers can do. -/
theorem memWrite_cases {p n : Nat} {v : BitVec n} {m m' : Memory} (h : memWrite p v m = .ok m') :
    p + n ≤ Config.capacity ∧ m' = writeCells m p (msbFirst v) := by
  unfold memWrite inBuffer at h
  split at h
  · rename_i hp
    exact ⟨by simpa using hp, by cases h; rfl⟩
  · cases h

theorem bitSet_wf {p : Nat} {v : Bool} {m m' : Memory} (h : bitSet p v m = .ok m')
    (hm : Memory.wf m = true) : Memory.wf m' = true := by
  obtain ⟨hp, rfl⟩ := bitSet_cases h
  exact Memory.wf_writeCell hp hm

theorem memWrite_wf {p n : Nat} {v : BitVec n} {m m' : Memory} (h : memWrite p v m = .ok m')
    (hm : Memory.wf m = true) : Memory.wf m' = true := by
  obtain ⟨hp, rfl⟩ := memWrite_cases h
  exact Memory.wf_writeCells (by simpa using hp) hm

/-- A read after `MemWrite`: the value's bits, most significant first, and nothing else changed. -/
theorem readCell_memWrite {p n : Nat} {v : BitVec n} {m m' : Memory}
    (h : memWrite p v m = .ok m') (q : Nat) :
    readCell m' q = if p ≤ q ∧ q < p + n then v.getMsbD (q - p) else readCell m q := by
  obtain ⟨-, rfl⟩ := memWrite_cases h
  rw [readCell_writeCells, length_msbFirst, getD_msbFirst]

/-- The bits of a value, most significant first, number it. -/
theorem natOfBits_foldl (bits : List Bool) (acc : Nat) :
    bits.foldl (fun acc b => 2 * acc + b.toNat) acc = acc * 2 ^ bits.length + natOfBits bits := by
  induction bits generalizing acc with
  | nil => simp [natOfBits]
  | cons b bs ih =>
    simp only [List.foldl_cons, natOfBits, List.length_cons]
    rw [ih, ih (2 * 0 + b.toNat)]
    ring

@[simp] theorem natOfBits_cons (b : Bool) (bs : List Bool) :
    natOfBits (b :: bs) = b.toNat * 2 ^ bs.length + natOfBits bs := by
  have h := natOfBits_foldl bs (2 * 0 + b.toNat)
  simpa [natOfBits] using h

/-- The number of the cells' bits is their weighted sum (R34). -/
theorem natOfBits_range (f : Nat → Bool) (n : Nat) :
    natOfBits ((List.range n).map f) = ∑ j ∈ Finset.range n, (f j).toNat * 2 ^ (n - 1 - j) := by
  induction n generalizing f with
  | zero => rfl
  | succ n ih =>
    rw [List.range_succ_eq_map, List.map_cons, List.map_map, natOfBits_cons, ih,
      Finset.sum_range_succ', List.length_map, List.length_range]
    simp only [Function.comp, Nat.add_sub_cancel, Nat.sub_zero]
    rw [Nat.add_comm]
    congr 1
    refine Finset.sum_congr rfl fun j hj => ?_
    have : n - 1 - j = n - (j + 1) := by omega
    rw [this]

theorem natOfBits_lt (bits : List Bool) : natOfBits bits < 2 ^ bits.length := by
  induction bits with
  | nil => simp [natOfBits]
  | cons b bs ih =>
    rw [natOfBits_cons, List.length_cons, pow_succ]
    cases b <;> simp <;> omega

theorem testBit_natOfBits (bits : List Bool) (i : Nat) (hi : i < bits.length) :
    (natOfBits bits).testBit i = bits.getD (bits.length - 1 - i) false := by
  induction bits with
  | nil => simp at hi
  | cons b bs ih =>
    have hlt := natOfBits_lt bs
    rw [natOfBits_cons, Nat.mul_comm, Nat.testBit_two_pow_mul_add _ hlt]
    simp only [List.length_cons, Nat.add_sub_cancel] at hi ⊢
    by_cases h : i < bs.length
    · have hidx : bs.length - i = (bs.length - 1 - i) + 1 := by omega
      rw [if_pos h, ih h, hidx, List.getD_cons_succ]
    · have hidx : i = bs.length := by omega
      subst hidx
      cases b <;> simp

/-- A value is the number of its own bits. -/
theorem ofNat_natOfBits_msbFirst {n : Nat} (v : BitVec n) :
    BitVec.ofNat n (natOfBits (msbFirst v)) = v := by
  ext i hi
  have hlen := length_msbFirst v
  rw [← BitVec.getLsbD_eq_getElem hi, BitVec.getLsbD_ofNat, testBit_natOfBits _ _ (by omega), hlen,
    getD_msbFirst, BitVec.getMsbD]
  have h1 : n - 1 - i < n := by omega
  have h2 : n - 1 - (n - 1 - i) = i := by omega
  simp [hi, h1, h2]

/-- Cells that hold the bits of a value, most significant first, read back as it (R34). -/
theorem memRead_eq {p n : Nat} {m : Memory} (hp : p + n ≤ Config.capacity) (v : BitVec n)
    (h : ∀ j, j < n → readCell m (p + j) = v.getMsbD j) : memRead p n m = .ok v := by
  have hin : inBuffer p n = true := decide_eq_true hp
  have hbits : (List.range n).map (fun j => readCell m (p + j)) = msbFirst v :=
    List.map_congr_left fun j hj => h j (by simpa using hj)
  simp only [memRead, hin, if_true, hbits, ofNat_natOfBits_msbFirst]

/-- The buffer after reset is in canonical form. -/
theorem State.reset_bb_wf : Memory.wf State.reset.bb = true := rfl

end Sys2Proof.Machine
end

