-- ==== Sys2Proof/Laws/Framing.lean ====
section
/-! SUPPORT. What the framing procedure does, said once: it never leaves the buffer, it writes exactly
the packet's bits, and it keeps the canonical form. -/

namespace Sys2Proof.Machine

/-- Bit `p` of the framed packet of payload `d`, for `p < 16 + 9N`: the table of R42 read off position by
position. -/
def packetBit (d : List Byte) (p : Nat) : Bool :=
  if p < 15 then true
  else if p = 15 + 9 * d.length then true
  else if (p - 15) % 9 = 0 then false
  else (d.getD ((p - 16) / 9) 0#8).getMsbD ((p - 16) % 9)

theorem raise_eq (e : StatusCode) (s : State) : raise e s = .next { s with status := e.number } := rfl

theorem complete_eq (s : State) : complete s = .next { s with status := 0#3 } := rfl

theorem completeWithLen_eq (n : Nat) (s : State) :
    completeWithLen n s = .next { s with len := BitVec.ofNat 6 n, status := 0#3 } := rfl

/-- Everything `raise` can do. -/
theorem raise_cases {e : StatusCode} {s t : State} (h : raise e s = .next t) :
    t = { s with status := e.number } := by
  cases h; rfl

/-- Everything `complete` can do. -/
theorem complete_cases {s t : State} (h : complete s = .next t) : t = { s with status := 0#3 } := by
  cases h; rfl

/-- Every status code is a number below 6. -/
theorem StatusCode.number_le (e : StatusCode) : e.number.toNat ≤ 5 := by
  cases e <;> decide

/-- The loop of R63: from cursor `pos`, byte `k` lies behind a start bit at `pos + 9k`. -/
theorem renderBytes_spec (d : List Byte) (pos : Nat) (m : Memory)
    (hd : pos + 9 * d.length ≤ Config.capacity) :
    ∃ m', renderBytes d pos m = .ok (pos + 9 * d.length, m') ∧
      (∀ q, readCell m' q =
        if pos ≤ q ∧ q < pos + 9 * d.length then
          if (q - pos) % 9 = 0 then false
          else (d.getD ((q - pos) / 9) 0#8).getMsbD ((q - pos) % 9 - 1)
        else readCell m q) ∧
      (Memory.wf m = true → Memory.wf m' = true) := by
  induction d generalizing pos m with
  | nil => exact ⟨m, by simp [renderBytes], fun q => by simp; omega, id⟩
  | cons b bs ih =>
    simp only [List.length_cons] at hd
    have h1 := bitSet_ok (p := pos) (by omega) false m
    have h2 := memWrite_ok (p := pos + 1) (by omega) b (writeCell m pos false)
    obtain ⟨m', hm', hread, hwf⟩ :=
      ih (pos + 9) (writeCells (writeCell m pos false) (pos + 1) (msbFirst b)) (by omega)
    refine ⟨m', ?_, fun q => ?_, fun hm => hwf (memWrite_wf h2 (bitSet_wf h1 hm))⟩
    · rw [renderBytes, h1]
      simp only [bind, Except.bind, h2, Config.bitsPerByte]
      rw [hm']
      simp only [List.length_cons, Except.ok.injEq, Prod.mk.injEq, and_true]
      omega
    · rw [hread, List.length_cons]
      by_cases hin : pos + 9 ≤ q ∧ q < pos + 9 + 9 * bs.length
      · have hq : pos ≤ q ∧ q < pos + 9 * (bs.length + 1) := by omega
        have hdiv : (q - pos) / 9 = (q - (pos + 9)) / 9 + 1 := by omega
        have hmod : (q - pos) % 9 = (q - (pos + 9)) % 9 := by omega
        rw [if_pos hin, if_pos hq, hmod, hdiv]
        rfl
      · rw [if_neg hin, readCell_memWrite h2, readCell_writeCell]
        by_cases hby : pos + 1 ≤ q ∧ q < pos + 1 + 8
        · have hq : pos ≤ q ∧ q < pos + 9 * (bs.length + 1) := by omega
          have hdiv : (q - pos) / 9 = 0 := by omega
          have hmod : (q - pos) % 9 = q - pos := by omega
          rw [if_pos hby, if_pos hq, hmod, hdiv, if_neg (by omega)]
          simp only [List.getD_cons_zero]
          congr 1
        · rw [if_neg hby]
          by_cases hqp : q = pos
          · subst hqp
            simp
          · have hq : ¬(pos ≤ q ∧ q < pos + 9 * (bs.length + 1)) := by omega
            rw [if_neg hqp, if_neg hq]

/-- The writes of R63 for a payload that fits: the final cursor is `16 + 9N`, the cells before it hold
the packet (R42), and the cells from it on keep their values (R38). -/
theorem renderPacket_spec (d : List Byte) (m : Memory) (hd : d.length ≤ 4) :
    ∃ m', renderPacket d m = .ok (16 + 9 * d.length, m') ∧
      (∀ q, readCell m' q = if q < 16 + 9 * d.length then packetBit d q else readCell m q) ∧
      (Memory.wf m = true → Memory.wf m' = true) := by
  have hcap : Config.capacity = 52 := rfl
  have h1 := memWrite_ok (p := 0) (n := 16) (by omega) Config.preamblePattern m
  obtain ⟨m2, h2, hread, hwf⟩ :=
    renderBytes_spec d 15 (writeCells m 0 (msbFirst Config.preamblePattern)) (by omega)
  have h3 := bitSet_ok (p := 15 + 9 * d.length) (by omega) true m2
  refine ⟨_, ?_, fun q => ?_, fun hm => bitSet_wf h3 (hwf (memWrite_wf h1 hm))⟩
  · have h2' : renderBytes d Config.preambleOnes
        (writeCells m 0 (msbFirst Config.preamblePattern)) = .ok (15 + 9 * d.length, m2) := h2
    simp only [renderPacket, bind, Except.bind, h1, h2', h3, Except.ok.injEq, Prod.mk.injEq, and_true]
    omega
  · rw [readCell_writeCell]
    by_cases hstop : q = 15 + 9 * d.length
    · subst hstop
      rw [if_pos rfl, if_pos (by omega)]
      simp [packetBit]
    · rw [if_neg hstop, hread]
      by_cases hin : 15 ≤ q ∧ q < 15 + 9 * d.length
      · have hlt : q < 16 + 9 * d.length := by omega
        have hpre : ¬ q < 15 := by omega
        rw [if_pos hin, if_pos hlt, packetBit, if_neg hpre, if_neg hstop]
        by_cases hmod : (q - 15) % 9 = 0
        · rw [if_pos hmod, if_pos hmod]
        · have h16 : (q - 16) / 9 = (q - 15) / 9 := by omega
          have h17 : (q - 16) % 9 = (q - 15) % 9 - 1 := by omega
          rw [if_neg hmod, if_neg hmod, h16, h17]
      · rw [if_neg hin, readCell_memWrite h1]
        by_cases hpre : q < 15
        · have hones : ∀ j, j < 15 → Config.preamblePattern.getMsbD j = true := by decide
          have hlt : q < 16 + 9 * d.length := by omega
          have hpat : 0 ≤ q ∧ q < 0 + 16 := by omega
          rw [if_pos hpat, if_pos hlt, packetBit, if_pos hpre]
          exact hones _ (by omega)
        · have hlt : ¬ q < 16 + 9 * d.length := by omega
          have hpat : ¬(0 ≤ q ∧ q < 0 + 16) := by omega
          rw [if_neg hpat, if_neg hlt]

theorem requiredBits_fits {n : Nat} (h : n ≤ 4) : ¬ Config.capacity < requiredBits n := by
  simp only [Config.capacity, requiredBits, Config.preambleOnes, Config.bitsPerByte]
  omega

theorem requiredBits_exceeds {n : Nat} (h : 5 ≤ n) : Config.capacity < requiredBits n := by
  simp only [Config.capacity, requiredBits, Config.preambleOnes, Config.bitsPerByte]
  omega

/-- What `Frame(d)` answers for a payload that fits (R63). -/
theorem frame_spec (d : List Byte) (s : State) (hd : d.length ≤ 4) :
    ∃ m, frame d s = .next { s with bb := m, len := BitVec.ofNat 6 (16 + 9 * d.length), status := 0#3 } ∧
      (∀ q, readCell m q = if q < 16 + 9 * d.length then packetBit d q else readCell s.bb q) ∧
      (Memory.wf s.bb = true → Memory.wf m = true) := by
  obtain ⟨m, hm, hread, hwf⟩ := renderPacket_spec d s.bb hd
  refine ⟨m, ?_, hread, hwf⟩
  rw [frame, if_neg (requiredBits_fits hd), hm]
  rfl

/-- What `Frame(d)` answers for a payload that does not fit (R62). -/
theorem frame_tooLong (d : List Byte) (s : State) (hd : 5 ≤ d.length) :
    frame d s = raise .tooLong s := by
  rw [frame, if_pos (requiredBits_exceeds hd)]

/-- The packet's bits form a frame (R42). -/
theorem holdsFrame_of_packetBit {d : List Byte} {m : Memory}
    (h : ∀ q, q < 16 + 9 * d.length → readCell m q = packetBit d q) : HoldsFrame m d.length where
  preamble p hp := by rw [h p (by omega), packetBit, if_pos hp]
  startBits k hk := by
    rw [h _ (by omega), packetBit, if_neg (by omega), if_neg (by omega), if_pos (by omega)]
  stopBit := by rw [h _ (by omega), packetBit, if_neg (by omega), if_pos rfl]

/-- The packet's bits are the rows of R42. -/
theorem carriesPacket_of_packetBit {d : List Byte} {m : Memory}
    (h : ∀ q, q < 16 + 9 * d.length → readCell m q = packetBit d q) : CarriesPacket m d where
  preamble := (holdsFrame_of_packetBit h).preamble
  startBits := (holdsFrame_of_packetBit h).startBits
  payload k j hk hj := by
    have hdiv : (16 + 9 * k + j - 16) / 9 = k := by omega
    have hmod : (16 + 9 * k + j - 16) % 9 = j := by omega
    rw [h _ (by omega), packetBit, if_neg (by omega), if_neg (by omega), if_neg (by omega), hdiv,
      hmod, BitVec.getMsbD]
    simp [hj]
  stopBit := (holdsFrame_of_packetBit h).stopBit

@[simp] theorem length_framePayload (n : Nat) (b0 b1 b2 b3 : Byte) :
    (framePayload n b0 b1 b2 b3).length = min n 4 := by
  simp [framePayload]

@[simp] theorem length_baselinePayload (a i : Byte) : (baselinePayload a i).length = 3 := rfl

/-- The third byte of a baseline packet is the exclusive-or of the first two (R66). -/
theorem baselinePayload_eq (a i : Byte) : baselinePayload a i = [a, i, a ^^^ i] := by
  simp [baselinePayload, checksum]

end Sys2Proof.Machine
end

