-- ==== Sys2Proof/Laws/PerInstr.lean ====
section
/-! SUPPORT. A statement proved command by command: the word the encoder writes selects the command's
own row of the opcode map (30_encoding.md R52). -/

namespace Sys2Proof.Laws.EncodingSelectsRow

/-- The encoded word, masked, is the match value of the command's row (R52). -/
def Statement (i : Instr) : Prop := i.row.selects (encode i) = true

theorem frame (n : Nat) (b0 b1 b2 b3 : Byte) : Statement (.frame n b0 b1 b2 b3) := by
  simp only [Statement, Instr.row, OpcodeRow.selects, encode, beq_iff_eq]
  ext i hi
  simp only [BitVec.getElem_and, BitVec.getElem_append]
  interval_cases i <;> simp

theorem setAddr (a : Byte) : Statement (.setAddr a) := by
  simp only [Statement, Instr.row, OpcodeRow.selects, encode, beq_iff_eq]
  ext i hi
  simp only [BitVec.getElem_and, BitVec.getElem_append]
  interval_cases i <;> simp

theorem setSpeed (sp : Byte) : Statement (.setSpeed sp) := by
  simp only [Statement, Instr.row, OpcodeRow.selects, encode, beq_iff_eq]
  ext i hi
  simp only [BitVec.getElem_and, BitVec.getElem_append]
  interval_cases i <;> simp

theorem setDir (d : Direction) : Statement (.setDir d) := by
  cases d <;> rfl

theorem setEstop (e : Bool) : Statement (.setEstop e) := by
  cases e <;> rfl

theorem build : Statement .build := rfl

theorem serSd : Statement .serSd := rfl

theorem serReset : Statement .serReset := rfl

theorem serIdle : Statement .serIdle := rfl

theorem serBstopImm : Statement .serBstopImm := rfl

theorem serBstopFloat : Statement .serBstopFloat := rfl

theorem bufClear : Statement .bufClear := rfl

end Sys2Proof.Laws.EncodingSelectsRow
end

