-- ==== Sys2Proof/Laws/State.lean ====
section
/-! SUPPORT. One lemma for each field of State under each named update of the whole state, true by
definition, so that no later proof unfolds a record update. -/

namespace Sys2Proof.Machine

@[simp] theorem acceptCommand_bAddr (w : CommandWord) (s : State) : (acceptCommand w s).bAddr = s.bAddr := rfl
@[simp] theorem acceptCommand_bAddrV (w : CommandWord) (s : State) : (acceptCommand w s).bAddrV = s.bAddrV := rfl
@[simp] theorem acceptCommand_bSpeed (w : CommandWord) (s : State) : (acceptCommand w s).bSpeed = s.bSpeed := rfl
@[simp] theorem acceptCommand_bSpeedV (w : CommandWord) (s : State) : (acceptCommand w s).bSpeedV = s.bSpeedV := rfl
@[simp] theorem acceptCommand_bEstop (w : CommandWord) (s : State) : (acceptCommand w s).bEstop = s.bEstop := rfl
@[simp] theorem acceptCommand_bDir (w : CommandWord) (s : State) : (acceptCommand w s).bDir = s.bDir := rfl
@[simp] theorem acceptCommand_bDirV (w : CommandWord) (s : State) : (acceptCommand w s).bDirV = s.bDirV := rfl
@[simp] theorem acceptCommand_pktAddr (w : CommandWord) (s : State) : (acceptCommand w s).pktAddr = s.pktAddr := rfl
@[simp] theorem acceptCommand_pktInstr (w : CommandWord) (s : State) : (acceptCommand w s).pktInstr = s.pktInstr := rfl
@[simp] theorem acceptCommand_pktValid (w : CommandWord) (s : State) : (acceptCommand w s).pktValid = s.pktValid := rfl
@[simp] theorem acceptCommand_bb (w : CommandWord) (s : State) : (acceptCommand w s).bb = s.bb := rfl
@[simp] theorem acceptCommand_len (w : CommandWord) (s : State) : (acceptCommand w s).len = s.len := rfl
@[simp] theorem acceptCommand_status (w : CommandWord) (s : State) : (acceptCommand w s).status = s.status := rfl
@[simp] theorem acceptCommand_inProgress (w : CommandWord) (s : State) : (acceptCommand w s).inProgress = some w := rfl
@[simp] theorem acceptCommand_rspValid (w : CommandWord) (s : State) : (acceptCommand w s).rspValid = false := rfl
@[simp] theorem acceptCommand_hostEvents (w : CommandWord) (s : State) : (acceptCommand w s).hostEvents = s.hostEvents := rfl

@[simp] theorem respond_bAddr (s : State) : (respond s).bAddr = s.bAddr := rfl
@[simp] theorem respond_bAddrV (s : State) : (respond s).bAddrV = s.bAddrV := rfl
@[simp] theorem respond_bSpeed (s : State) : (respond s).bSpeed = s.bSpeed := rfl
@[simp] theorem respond_bSpeedV (s : State) : (respond s).bSpeedV = s.bSpeedV := rfl
@[simp] theorem respond_bEstop (s : State) : (respond s).bEstop = s.bEstop := rfl
@[simp] theorem respond_bDir (s : State) : (respond s).bDir = s.bDir := rfl
@[simp] theorem respond_bDirV (s : State) : (respond s).bDirV = s.bDirV := rfl
@[simp] theorem respond_pktAddr (s : State) : (respond s).pktAddr = s.pktAddr := rfl
@[simp] theorem respond_pktInstr (s : State) : (respond s).pktInstr = s.pktInstr := rfl
@[simp] theorem respond_pktValid (s : State) : (respond s).pktValid = s.pktValid := rfl
@[simp] theorem respond_bb (s : State) : (respond s).bb = s.bb := rfl
@[simp] theorem respond_len (s : State) : (respond s).len = s.len := rfl
@[simp] theorem respond_status (s : State) : (respond s).status = s.status := rfl
@[simp] theorem respond_inProgress (s : State) : (respond s).inProgress = none := rfl
@[simp] theorem respond_rspValid (s : State) : (respond s).rspValid = true := rfl
@[simp] theorem respond_hostEvents (s : State) : (respond s).hostEvents = s.hostEvents := rfl

@[simp] theorem applyReset_bAddr (s : State) : (applyReset s).bAddr = 0#8 := rfl
@[simp] theorem applyReset_bAddrV (s : State) : (applyReset s).bAddrV = false := rfl
@[simp] theorem applyReset_bSpeed (s : State) : (applyReset s).bSpeed = 0#8 := rfl
@[simp] theorem applyReset_bSpeedV (s : State) : (applyReset s).bSpeedV = false := rfl
@[simp] theorem applyReset_bEstop (s : State) : (applyReset s).bEstop = false := rfl
@[simp] theorem applyReset_bDir (s : State) : (applyReset s).bDir = .forward := rfl
@[simp] theorem applyReset_bDirV (s : State) : (applyReset s).bDirV = false := rfl
@[simp] theorem applyReset_pktAddr (s : State) : (applyReset s).pktAddr = 0#8 := rfl
@[simp] theorem applyReset_pktInstr (s : State) : (applyReset s).pktInstr = 0#8 := rfl
@[simp] theorem applyReset_pktValid (s : State) : (applyReset s).pktValid = false := rfl
@[simp] theorem applyReset_bb (s : State) : (applyReset s).bb = [] := rfl
@[simp] theorem applyReset_len (s : State) : (applyReset s).len = 0#6 := rfl
@[simp] theorem applyReset_status (s : State) : (applyReset s).status = 0#3 := rfl
@[simp] theorem applyReset_inProgress (s : State) : (applyReset s).inProgress = none := rfl
@[simp] theorem applyReset_rspValid (s : State) : (applyReset s).rspValid = false := rfl
@[simp] theorem applyReset_hostEvents (s : State) : (applyReset s).hostEvents = s.hostEvents := rfl

@[simp] theorem placeCommand_bAddr (w : CommandWord) (s : State) : (placeCommand w s).bAddr = s.bAddr := rfl
@[simp] theorem placeCommand_bAddrV (w : CommandWord) (s : State) : (placeCommand w s).bAddrV = s.bAddrV := rfl
@[simp] theorem placeCommand_bSpeed (w : CommandWord) (s : State) : (placeCommand w s).bSpeed = s.bSpeed := rfl
@[simp] theorem placeCommand_bSpeedV (w : CommandWord) (s : State) : (placeCommand w s).bSpeedV = s.bSpeedV := rfl
@[simp] theorem placeCommand_bEstop (w : CommandWord) (s : State) : (placeCommand w s).bEstop = s.bEstop := rfl
@[simp] theorem placeCommand_bDir (w : CommandWord) (s : State) : (placeCommand w s).bDir = s.bDir := rfl
@[simp] theorem placeCommand_bDirV (w : CommandWord) (s : State) : (placeCommand w s).bDirV = s.bDirV := rfl
@[simp] theorem placeCommand_pktAddr (w : CommandWord) (s : State) : (placeCommand w s).pktAddr = s.pktAddr := rfl
@[simp] theorem placeCommand_pktInstr (w : CommandWord) (s : State) : (placeCommand w s).pktInstr = s.pktInstr := rfl
@[simp] theorem placeCommand_pktValid (w : CommandWord) (s : State) : (placeCommand w s).pktValid = s.pktValid := rfl
@[simp] theorem placeCommand_bb (w : CommandWord) (s : State) : (placeCommand w s).bb = s.bb := rfl
@[simp] theorem placeCommand_len (w : CommandWord) (s : State) : (placeCommand w s).len = s.len := rfl
@[simp] theorem placeCommand_status (w : CommandWord) (s : State) : (placeCommand w s).status = s.status := rfl
@[simp] theorem placeCommand_inProgress (w : CommandWord) (s : State) : (placeCommand w s).inProgress = some w := rfl
@[simp] theorem placeCommand_rspValid (w : CommandWord) (s : State) : (placeCommand w s).rspValid = false := rfl
@[simp] theorem placeCommand_hostEvents (w : CommandWord) (s : State) : (placeCommand w s).hostEvents = s.hostEvents.dropWhile (· == .rstInFlight) := rfl

end Sys2Proof.Machine
end

