-- ==== Sys2Proof/Laws/Step.lean ====
section
/-! SUPPORT. What a meaning can do and what a step can do, each said once. -/

namespace Sys2Proof.Machine

/-- What FRAME answers for a count that fits: the framing procedure on its first `n` bytes. -/
theorem execFrame_fits {n : Nat} (hn : n ≤ 4) (b0 b1 b2 b3 : Byte) (s : State) :
    execFrame n b0 b1 b2 b3 s = frame ([b0, b1, b2, b3].take n) s := by
  have h : ¬ 5 ≤ n := by omega
  simp [execFrame, countTooLong, framePayload, h, Nat.min_eq_left hn]

/-- What FRAME answers for any other count. -/
theorem execFrame_tooLong {n : Nat} (hn : 5 ≤ n) (b0 b1 b2 b3 : Byte) (s : State) :
    execFrame n b0 b1 b2 b3 s = .next { s with status := 3#3 } := by
  simp [execFrame, countTooLong, hn, raise, StatusCode.number]

/-- What BUF_CLEAR answers. -/
theorem execBufClear_spec (s : State) :
    ∃ m, execBufClear s = .next { s with bb := m, len := 0#6, status := 0#3 } ∧
      (∀ q, readCell m q = if q < 52 then false else readCell s.bb q) ∧
      (Memory.wf s.bb = true → Memory.wf m = true) := by
  obtain ⟨m, h⟩ : ∃ m, memWrite 0 0#52 s.bb = .ok m := ⟨_, memWrite_ok (Nat.le_refl _) _ _⟩
  refine ⟨m, ?_, fun q => ?_, fun hm => memWrite_wf h hm⟩
  · simp only [execBufClear, h, completeWithLen_eq]
  · rw [readCell_memWrite h]
    simp

/-- What `Frame(d)` answers for a payload that fits, in the rows of R42. -/
theorem frame_carries (d : List Byte) (s : State) (hd : d.length ≤ 4) :
    ∃ m, frame d s = .next { s with bb := m, len := BitVec.ofNat 6 (16 + 9 * d.length), status := 0#3 } ∧
      CarriesPacket m d ∧ ∀ q, 16 + 9 * d.length ≤ q → readCell m q = readCell s.bb q := by
  obtain ⟨m, hm, hread, -⟩ := frame_spec d s hd
  refine ⟨m, hm, carriesPacket_of_packetBit fun q hq => ?_, fun q hq => ?_⟩
  · rw [hread, if_pos hq]
  · rw [hread, if_neg (by omega)]

/-- What the framing of a baseline packet answers: 43 bits, and nothing else of the buffer. -/
theorem frame_baseline (a i : Byte) (s : State) :
    ∃ m, frame (baselinePayload a i) s = .next { s with bb := m, len := 43#6, status := 0#3 } ∧
      CarriesPacket m [a, i, a ^^^ i] ∧
      ∀ q, readCell m q = if q < 43 then packetBit [a, i, a ^^^ i] q else readCell s.bb q := by
  rw [baselinePayload_eq]
  obtain ⟨m, hm, hread, -⟩ := frame_spec [a, i, a ^^^ i] s (by simp)
  exact ⟨m, hm, carriesPacket_of_packetBit fun q hq => by rw [hread, if_pos hq], hread⟩

/-- Everything a command that answers a next state can do: raise, stage a builder field, build, frame
a payload, or clear the buffer. -/
theorem exec_cases {i : Instr} {s t : State} (h : exec i s = .next t) :
    (∃ e : StatusCode, t = { s with status := e.number }) ∨
    (∃ a, i = .setAddr a ∧ addrValid a = true ∧
      t = { s with bAddr := a, bAddrV := true, status := 0#3 }) ∨
    (∃ sp, i = .setSpeed sp ∧ speedValid sp = true ∧
      t = { s with bSpeed := sp, bSpeedV := true, status := 0#3 }) ∨
    (∃ d, i = .setDir d ∧ t = { s with bDir := d, bDirV := true, status := 0#3 }) ∨
    (∃ e, i = .setEstop e ∧ t = { s with bEstop := e, status := 0#3 }) ∨
    (i = .build ∧ t = { s with
      pktAddr := builderAddr s, pktInstr := instrByte (builderDir s) (builderSpeed s) s.bEstop,
      pktValid := true, status := 0#3 }) ∨
    (∃ d m, d.length ≤ 4 ∧
      t = { s with bb := m, len := BitVec.ofNat 6 (16 + 9 * d.length), status := 0#3 } ∧
      (∀ q, readCell m q = if q < 16 + 9 * d.length then packetBit d q else readCell s.bb q) ∧
      (Memory.wf s.bb = true → Memory.wf m = true)) ∨
    (∃ m, i = .bufClear ∧ t = { s with bb := m, len := 0#6, status := 0#3 } ∧
      (∀ q, readCell m q = if q < 52 then false else readCell s.bb q) ∧
      (Memory.wf s.bb = true → Memory.wf m = true)) := by
  have framing : ∀ d : List Byte, d.length ≤ 4 → frame d s = .next t → ∃ d m, d.length ≤ 4 ∧
      t = { s with bb := m, len := BitVec.ofNat 6 (16 + 9 * d.length), status := 0#3 } ∧
      (∀ q, readCell m q = if q < 16 + 9 * d.length then packetBit d q else readCell s.bb q) ∧
      (Memory.wf s.bb = true → Memory.wf m = true) := by
    intro d hd hf
    obtain ⟨m, hm, hread, hwf⟩ := frame_spec d s hd
    rw [hm] at hf
    cases hf
    exact ⟨d, m, hd, rfl, hread, hwf⟩
  cases i with
  | frame n b0 b1 b2 b3 =>
    by_cases hn : n ≤ 4
    · have h' : frame ([b0, b1, b2, b3].take n) s = .next t := by
        rw [← execFrame_fits hn]; exact h
      exact .inr (.inr (.inr (.inr (.inr (.inr (.inl (framing _ (by simp) h')))))))
    · have h' : execFrame n b0 b1 b2 b3 s = .next t := h
      rw [execFrame_tooLong (by omega)] at h'
      cases h'
      exact .inl ⟨.tooLong, rfl⟩
  | setAddr a =>
    by_cases ha : addrValid a = true
    · simp only [exec, execSetAddr, ha, if_true] at h
      exact .inr (.inl ⟨a, rfl, ha, complete_cases h⟩)
    · simp only [exec, execSetAddr, ha] at h
      exact .inl ⟨_, raise_cases h⟩
  | setSpeed sp =>
    by_cases hs : speedValid sp = true
    · simp only [exec, execSetSpeed, hs, if_true] at h
      exact .inr (.inr (.inl ⟨sp, rfl, hs, complete_cases h⟩))
    · simp only [exec, execSetSpeed, hs] at h
      exact .inl ⟨_, raise_cases h⟩
  | setDir d => exact .inr (.inr (.inr (.inl ⟨d, rfl, complete_cases h⟩)))
  | setEstop e => exact .inr (.inr (.inr (.inr (.inl ⟨e, rfl, complete_cases h⟩))))
  | build => exact .inr (.inr (.inr (.inr (.inr (.inl ⟨rfl, complete_cases h⟩)))))
  | serSd =>
    by_cases hp : s.pktValid = true
    · simp only [exec, execSerSd, hp, if_true] at h
      exact .inr (.inr (.inr (.inr (.inr (.inr (.inl (framing _ (by simp) h)))))))
    · simp only [exec, execSerSd, hp] at h
      exact .inl ⟨_, raise_cases h⟩
  | serReset =>
    exact .inr (.inr (.inr (.inr (.inr (.inr (.inl (framing (baselinePayload 0x00#8 0x00#8) (by simp) h)))))))
  | serIdle =>
    exact .inr (.inr (.inr (.inr (.inr (.inr (.inl (framing (baselinePayload 0xFF#8 0x00#8) (by simp) h)))))))
  | serBstopImm =>
    exact .inr (.inr (.inr (.inr (.inr (.inr (.inl (framing (baselinePayload 0x00#8 0x40#8) (by simp) h)))))))
  | serBstopFloat =>
    exact .inr (.inr (.inr (.inr (.inr (.inr (.inl (framing (baselinePayload 0x00#8 0x50#8) (by simp) h)))))))
  | bufClear =>
    obtain ⟨m, hm, hread, hwf⟩ := execBufClear_spec s
    have h' : execBufClear s = .next t := h
    rw [hm] at h'
    cases h'
    exact .inr (.inr (.inr (.inr (.inr (.inr (.inr ⟨m, rfl, rfl, hread, hwf⟩))))))

/-- No command touches the interface state or the host's events. -/
theorem exec_interface {i : Instr} {s t : State} (h : exec i s = .next t) :
    t.inProgress = s.inProgress ∧ t.rspValid = s.rspValid ∧ t.hostEvents = s.hostEvents := by
  obtain ⟨_, rfl⟩ | ⟨_, _, _, rfl⟩ | ⟨_, _, _, rfl⟩ | ⟨_, _, rfl⟩ | ⟨_, _, rfl⟩ | ⟨_, rfl⟩ |
    ⟨_, _, _, rfl, _⟩ | ⟨_, _, rfl, _⟩ := exec_cases h <;> exact ⟨rfl, rfl, rfl⟩

/-- Everything a command word can do: run the command it decodes to, or raise ILLEGAL_COMMAND. -/
theorem executeWord_cases {w : CommandWord} {s t : State} (h : executeWord w s = .next t) :
    (∃ i, decode w = .ok i ∧ exec i s = .next t) ∨
    ((∀ i, decode w ≠ .ok i) ∧ t = { s with status := 4#3 }) := by
  unfold executeWord at h
  split at h
  · rename_i i hi
    exact .inl ⟨i, hi, h⟩
  · rename_i e he
    exact .inr ⟨fun i hi => by simp [he] at hi, raise_cases h⟩

/-- A framing does not look at what the host drives. -/
theorem frame_hostEvents {d : List Byte} {s t : State} (ev : List HostEvent)
    (h : frame d s = .next t) :
    frame d { s with hostEvents := ev } = .next { t with hostEvents := ev } := by
  unfold frame at h ⊢
  split
  · rw [if_pos (by assumption)] at h
    cases h; rfl
  · rw [if_neg (by assumption)] at h
    split at h
    · rename_i hm
      simp only [hm]
      cases h; rfl
    · cases h

/-- No command looks at what the host drives. -/
theorem exec_hostEvents {i : Instr} {s t : State} (ev : List HostEvent) (h : exec i s = .next t) :
    exec i { s with hostEvents := ev } = .next { t with hostEvents := ev } := by
  cases i with
  | frame n b0 b1 b2 b3 =>
    simp only [exec, execFrame] at h ⊢
    split
    · rw [if_pos (by assumption)] at h
      cases h; rfl
    · rw [if_neg (by assumption)] at h
      exact frame_hostEvents ev h
  | setAddr a =>
    simp only [exec, execSetAddr] at h ⊢
    split
    · rw [if_pos (by assumption)] at h
      cases h; rfl
    · rw [if_neg (by assumption)] at h
      cases h; rfl
  | setSpeed sp =>
    simp only [exec, execSetSpeed] at h ⊢
    split
    · rw [if_pos (by assumption)] at h
      cases h; rfl
    · rw [if_neg (by assumption)] at h
      cases h; rfl
  | setDir d => cases h; rfl
  | setEstop e => cases h; rfl
  | build => cases h; rfl
  | serSd =>
    simp only [exec, execSerSd] at h ⊢
    split
    · rw [if_pos (by assumption)] at h
      exact frame_hostEvents ev h
    · rw [if_neg (by assumption)] at h
      cases h; rfl
  | serReset => exact frame_hostEvents (d := baselinePayload 0x00#8 0x00#8) ev h
  | serIdle => exact frame_hostEvents (d := baselinePayload 0xFF#8 0x00#8) ev h
  | serBstopImm => exact frame_hostEvents (d := baselinePayload 0x00#8 0x40#8) ev h
  | serBstopFloat => exact frame_hostEvents (d := baselinePayload 0x00#8 0x50#8) ev h
  | bufClear =>
    simp only [exec, execBufClear] at h ⊢
    split at h
    · cases h; rfl
    · cases h

/-- No command word looks at what the host drives. -/
theorem executeWord_hostEvents {w : CommandWord} {s t : State} (ev : List HostEvent)
    (h : executeWord w s = .next t) :
    executeWord w { s with hostEvents := ev } = .next { t with hostEvents := ev } := by
  unfold executeWord at h ⊢
  split at h
  · exact exec_hostEvents ev h
  · cases h; rfl

/-- Everything a step that answers a next state can do. -/
theorem step_cases {s t : State} (h : step s = .next t) :
    (∃ e rest, (e = .rst ∨ e = .rstInFlight) ∧ s.hostEvents = e :: rest ∧
      t = { State.reset with hostEvents := rest }) ∨
    (∃ w, s.inProgress = some w ∧ executeWord w (respond s) = .next t) ∨
    (∃ w rest, s.inProgress = none ∧ s.hostEvents = .command w :: rest ∧
      t = { s with inProgress := some w, rspValid := false, hostEvents := rest }) ∨
    (s.inProgress = none ∧ s.hostEvents = [] ∧ t = s) := by
  unfold step at h
  split at h
  · rename_i rest _ hev
    cases h
    exact .inl ⟨_, rest, .inr rfl, hev, rfl⟩
  · exact .inr (.inl ⟨_, by assumption, h⟩)
  · rename_i hip hev
    cases h
    exact .inr (.inr (.inl ⟨_, _, hip, hev, rfl⟩))
  · rename_i rest _ hev
    cases h
    exact .inl ⟨_, rest, .inl rfl, hev, rfl⟩
  · rename_i rest _ hev
    cases h
    exact .inl ⟨_, rest, .inr rfl, hev, rfl⟩
  · rename_i hip hev
    cases h
    exact .inr (.inr (.inr ⟨hip, hev, rfl⟩))

/-- A command in progress with no reset landing on it is executed by the next step. -/
theorem step_inProgress {s : State} {w : CommandWord} (hip : s.inProgress = some w)
    (hev : s.hostEvents.head? ≠ some .rstInFlight) : step s = executeWord w (respond s) := by
  unfold step
  rw [hip]
  cases hevs : s.hostEvents with
  | nil => rfl
  | cons e rest =>
    rw [hevs] at hev
    cases e with
    | command v => rfl
    | rst => rfl
    | rstInFlight => simp at hev

/-- A driven command is accepted by an idle block. -/
theorem step_accept {s : State} {w : CommandWord} {rest : List HostEvent}
    (hip : s.inProgress = none) (hev : s.hostEvents = .command w :: rest) :
    step s = .next { s with inProgress := some w, rspValid := false, hostEvents := rest } := by
  simp [step, hip, hev, acceptCommand]

end Sys2Proof.Machine
end

