-- ==== Sys2Proof/Tests/Slice0.lean ====
section
/-! SUPPORT. The model's own tests: words written out from the spec's encodings, single steps against
the spec's test vectors (95_test_vectors.md), and for every statement with hypotheses a concrete state
that meets them. -/

namespace Sys2Proof.Tests

open Sys2Proof.Machine

/-! ### Helpers -/

/-- The next state of an outcome, if it is one. -/
def next? : Host.Outcome State Fault Refusal → Option State
  | .next s => some s
  | .fault _ => none
  | .refused _ => none

/-- The state after the word `w` is run from `s`. -/
def after (w : Nat) (s : State) : Option State := next? (step (s.withFetchWord 40 w))

/-- The byte view `BV[0..6]` of a state (R35). -/
def bv (s : State) : List (Option Byte) := (List.range 7).map (fun k => (byteView k s.bb).toOption)

/-- STATUS, LEN and the byte view after a word is run from `s`. -/
def seen (w : Nat) (s : State) : Option (BitVec 3 × BitVec 6 × List (Option Byte)) :=
  (after w s).map (fun t => (t.status, t.len, bv t))

/-- A state with a built packet (R20). -/
def withPacket (a i : Byte) : State :=
  { State.reset with pktAddr := a, pktInstr := i, pktValid := true }

/-- A state with the word in progress and the events driven next. -/
def busy (w : CommandWord) (ev : List HostEvent) : State :=
  { State.reset with inProgress := some w, hostEvents := ev }

/-! ### Well-formedness: the one check refuses an ill-formed term -/

theorem test_wellFormed_refuses_count_16 : (Instr.frame 16 0 0 0 0).wellFormed = false := by decide

theorem test_wellFormed_accepts_count_15 : (Instr.frame 15 0 0 0 0).wellFormed = true := by decide

/-! ### Decoding: words written out from R47 and R52, most of them listed in R60 -/

/-- `0001 0100 11011110 10101101 10111110 11101111`. -/
theorem test_decode_frame :
    decodeTableWord 40 0b0001010011011110101011011011111011101111 =
      some (.frame 4 0xDE 0xAD 0xBE 0xEF) := by decide

/-- `0010`, 28 zeros, `10000000`. -/
theorem test_decode_setAddr :
    decodeTableWord 40 0b0010000000000000000000000000000010000000 = some (.setAddr 128) := by decide

/-- `0011`, 28 zeros, `00001110`. -/
theorem test_decode_setSpeed :
    decodeTableWord 40 0b0011000000000000000000000000000000001110 = some (.setSpeed 14) := by decide

/-- `0100`, 35 zeros, `1` and `0`. -/
theorem test_decode_setDir :
    decodeTableWord 40 0b0100000000000000000000000000000000000001 = some (.setDir .forward) ∧
    decodeTableWord 40 0b0100000000000000000000000000000000000000 = some (.setDir .backward) := by
  decide

/-- `0101`, 35 zeros, `1` and `0`. -/
theorem test_decode_setEstop :
    decodeTableWord 40 0b0101000000000000000000000000000000000001 = some (.setEstop true) ∧
    decodeTableWord 40 0b0101000000000000000000000000000000000000 = some (.setEstop false) := by
  decide

theorem test_decode_build :
    decodeTableWord 40 0b0110000000000000000000000000000000000000 = some .build := by decide

theorem test_decode_serSd :
    decodeTableWord 40 0b0111000000000000000000000000000000000000 = some .serSd := by decide

theorem test_decode_serReset :
    decodeTableWord 40 0b1000000000000000000000000000000000000000 = some .serReset := by decide

theorem test_decode_serIdle :
    decodeTableWord 40 0b1001000000000000000000000000000000000000 = some .serIdle := by decide

theorem test_decode_serBstopImm :
    decodeTableWord 40 0b1010000000000000000000000000000000000000 = some .serBstopImm := by decide

theorem test_decode_serBstopFloat :
    decodeTableWord 40 0b1011000000000000000000000000000000000000 = some .serBstopFloat := by decide

theorem test_decode_bufClear :
    decodeTableWord 40 0b1100000000000000000000000000000000000000 = some .bufClear := by decide

/-- Table 2.6: reserved opcodes and nonzero must-be-zero bits. -/
theorem test_decode_illegal :
    [0x0000000000, 0xD000000000, 0xE000000000, 0xF123456789, 0x2000000123, 0x4000000002, 0x9000000001,
      0x6100000000].map (decodeTableWord 40) = List.replicate 8 none := by decide

/-! ### One step against the spec's vectors -/

/-- Table 2.1: `FRAME 4, DE, AD, BE, EF`. -/
theorem test_frame_four_bytes : seen 0x14DEADBEEF State.reset =
    some (0, 52, [0xFF, 0xFE, 0xDE, 0x56, 0xAF, 0x9D, 0xF0].map some) := by decide

/-- W5 and table 2.1: TOO_LONG leaves LEN and the buffer. -/
theorem test_frame_too_long : seen 0x1F00000000 { State.reset with bb := [(3, true)], len := 16 } =
    some (3, 16, [0x10, 0, 0, 0, 0, 0, 0].map some) := by decide

/-- W6. -/
theorem test_setAddr_127 :
    (after 0x200000007F State.reset).map (fun t => (t.status, t.bAddr, t.bAddrV)) =
      some (0, 127, true) := by decide

/-- W6: 128 fails and leaves an earlier address. -/
theorem test_setAddr_128 :
    (after 0x2000000080 { State.reset with bAddr := 80, bAddrV := true }).map
      (fun t => (t.status, t.bAddr, t.bAddrV)) = some (1, 80, true) := by decide

/-- W7. -/
theorem test_setSpeed_28 :
    (after 0x300000001C State.reset).map (fun t => (t.status, t.bSpeed, t.bSpeedV)) =
      some (0, 28, true) := by decide

/-- W7. -/
theorem test_setSpeed_29 :
    (after 0x300000001D State.reset).map (fun t => (t.status, t.bSpeedV)) = some (2, false) := by
  decide

/-- R78's example: `SET_DIR BWD`. -/
theorem test_setDir_backward :
    (after 0x4000000000 State.reset).map (fun t => (t.status, t.bDir, t.bDirV)) =
      some (0, .backward, true) := by decide

/-- R79's example: `SET_ESTOP 1`. -/
theorem test_setEstop_true :
    (after 0x5000000001 State.reset).map (fun t => (t.status, t.bEstop)) = some (0, true) := by decide

/-- Section 2.4: the defaults. -/
theorem test_build_defaults :
    (after 0x6000000000 State.reset).map (fun t => (t.pktAddr, t.pktInstr, t.pktValid)) =
      some (0x03, 0x60, true) := by decide

/-- P2: address 80, speed 28, Backward. -/
theorem test_build_staged :
    (after 0x6000000000 { State.reset with
      bAddr := 80, bAddrV := true, bSpeed := 28, bSpeedV := true, bDir := .backward, bDirV := true }).map
      (fun t => (t.pktAddr, t.pktInstr)) = some (0x50, 0x5F) := by decide

/-- W1, corrected: packet 23 78, checksum 5B. -/
theorem test_serSd_packet : seen 0x7000000000 (withPacket 0x23 0x78) =
    some (0, 43, [0xFF, 0xFE, 0x23, 0x3C, 0x16, 0xE0, 0x00].map some) := by decide

/-- Section 2.4: SER_SD before BUILD. -/
theorem test_serSd_no_packet : (seen 0x7000000000 State.reset).map (fun x => (x.1, x.2.1)) =
    some (5, 0) := by decide

/-- Section 2.1, stale tail: the cells 43 to 51 stay as they were. -/
theorem test_serReset_stale_tail :
    seen 0x8000000000 { State.reset with bb := (List.range 9).map (fun k => (43 + k, true)), len := 52 } =
      some (0, 43, [0xFF, 0xFE, 0x00, 0x00, 0x00, 0x3F, 0xF0].map some) := by decide

/-- W3. -/
theorem test_serIdle : seen 0x9000000000 State.reset =
    some (0, 43, [0xFF, 0xFE, 0xFF, 0x00, 0x3F, 0xE0, 0x00].map some) := by decide

/-- Table 2.5. -/
theorem test_serBstopImm : seen 0xA000000000 State.reset =
    some (0, 43, [0xFF, 0xFE, 0x00, 0x20, 0x10, 0x20, 0x00].map some) := by decide

/-- W4. -/
theorem test_serBstopFloat : seen 0xB000000000 State.reset =
    some (0, 43, [0xFF, 0xFE, 0x00, 0x28, 0x14, 0x20, 0x00].map some) := by decide

/-- Section 2.7; the cleared buffer is the reset buffer. -/
theorem test_bufClear :
    (after 0xC000000000 { State.reset with bb := [(0, true), (51, true)], len := 43, status := 3 }).map
      (fun t => (t.status, t.len, t.bb)) = some (0, 0, []) := by decide

/-- R98's example: ILLEGAL_COMMAND, not INVALID_ADDRESS. -/
theorem test_illegal_word_before_own_check :
    (after 0x2000000100 State.reset).map (·.status) = some 4 := by decide

/-- A rejected word answers ILLEGAL_COMMAND and leaves a built packet alone (R95). -/
theorem test_illegal_word_keeps_packet :
    (after 0xF123456789 (withPacket 0x23 0x78)).map (fun t => (t.status, t.pktAddr, t.pktValid)) =
      some (4, 0x23, true) := by decide

/-- Table 2.2. -/
theorem test_checksum : checksum [0x35, 0x78] = 0x4D ∧ checksum [0x01, 0x61] = 0x60 := by decide

/-- Table 2.3 at speeds 1, 13 and 28, and e-stop. -/
theorem test_instrByte :
    instrByte .forward 1 false = 0x62 ∧ instrByte .backward 13 false = 0x48 ∧
    instrByte .forward 28 false = 0x7F ∧ instrByte .backward 14 true = 0x41 := by decide

/-- R60: text of a FRAME, its number forms and letter case (R57). -/
theorem test_assemble_frame :
    assembleText "frame 3, 0x23, 0X78, 91".toList = some [0x1323785B00#40] := by decide

/-- P1 is the expansion of `SEND_SD 35, 14, FWD, 0`. -/
theorem test_assemble_sendSd :
    assembleText "SEND_SD 35, 14, FWD, 0".toList =
      some [0x2000000023#40, 0x300000000E#40, 0x4000000001#40, 0x5000000000#40, 0x6000000000#40,
        0x7000000000#40] := by decide

/-! ### Witnesses: every statement with hypotheses has a state and operands that meet them -/

theorem test_witness_DecodeOfEncodeIsIdentity :
    (Instr.frame 15 1 2 3 4).wellFormed = true ∧ Instr.bufClear.wellFormed = true := by decide

theorem test_witness_EncodeOfDecodeIsIdentity :
    decode 0x1FFFFFFFFF#40 = .ok (.frame 15 0xFF 0xFF 0xFF 0xFF) := rfl

theorem test_witness_DecodeAgreesWithOpcodeMap :
    decode 0x5000000001#40 = .ok (.setEstop true) ∧
    (Instr.setEstop true).row ∈ opcodeMap ∧ (Instr.setEstop true).row.selects 0x5000000001#40 = true :=
  ⟨rfl, by decide, by decide⟩

theorem test_witness_IllegalWordsAreRejectedByName :
    (0x0FFFFFFFFF#40).extractLsb' 36 4 ∈ [0x0#4, 0xD#4, 0xE#4, 0xF#4] ∧
    (0x1F00000000#40).extractLsb' 36 4 = 0x1#4 ∧
    ((0x2000000100#40).extractLsb' 36 4 ∈ [0x2#4, 0x3#4] ∧
      (0x2000000100#40).extractLsb' 8 28 ≠ 0#28) ∧
    ((0x5000000002#40).extractLsb' 36 4 ∈ [0x4#4, 0x5#4] ∧
      (0x5000000002#40).extractLsb' 1 35 ≠ 0#35) ∧
    ((0xC800000000#40).extractLsb' 36 4 ∈ [0x6#4, 0x7#4, 0x8#4, 0x9#4, 0xA#4, 0xB#4, 0xC#4] ∧
      (0xC800000000#40).extractLsb' 0 36 ≠ 0#36) := by decide

theorem test_witness_StepRunsTheDecodedCommand :
    (busy 0x9000000000 [.rst]).inProgress = some 0x9000000000 ∧
    (busy 0x9000000000 [.rst]).hostEvents.head? ≠ some .rstInFlight ∧
    decode 0x9000000000#40 = .ok .serIdle := ⟨rfl, by decide, rfl⟩

theorem test_witness_PlacedWordRunsNext :
    0xC000000000 < 2 ^ 40 ∧ decode (BitVec.ofNat 40 0xC000000000) = .ok .bufClear :=
  ⟨by decide, rfl⟩

theorem test_witness_IllegalWordSetsOnlyStatus :
    (busy 0x9000000001 []).inProgress = some 0x9000000001 ∧
    (busy 0x9000000001 []).hostEvents.head? ≠ some .rstInFlight ∧
    decode 0x9000000001#40 = .error .nonzeroMustBeZero := ⟨rfl, by decide, rfl⟩

/-- Each clause: an idle block with a command driven, one with nothing driven, and a busy one. -/
theorem test_witness_BlockTakesOneCommandAtATime :
    (cmdReady { State.reset with hostEvents := [.command 0] } = true) ∧
    (cmdReady State.reset = true ∧ State.reset.hostEvents = []) ∧
    (cmdReady (busy 0x6000000000 [.command 0]) = false ∧
      ∃ t, step (busy 0x6000000000 [.command 0]) = .next t) :=
  ⟨rfl, ⟨rfl, rfl⟩, rfl, _, rfl⟩

/-- Both kinds of reset. -/
theorem test_witness_ResetAbandonsAndRestores :
    (busy 0x9000000000 [.rstInFlight]).hostEvents = [.rstInFlight] ∧
    ({ withPacket 1 0x60 with hostEvents := [.rst] }).hostEvents = [.rst] ∧
    ({ withPacket 1 0x60 with hostEvents := [.rst] }).inProgress = none := ⟨rfl, rfl, rfl⟩

/-- The first position past the buffer, and accesses that cross its end by one. -/
theorem test_witness_NoStepLeavesTheBuffer :
    52 < 52 + 1 ∧ bitSet 52 true [] = .error .bufferOverrun ∧
    memWrite 45 0xFF#8 [] = .error .bufferOverrun ∧ memRead 45 8 [] = .error .bufferOverrun :=
  ⟨by decide, rfl, rfl, rfl⟩

theorem test_witness_AcceptedCommandReachesItsResponse :
    let s := { State.reset with hostEvents := [.command 0xC000000000, .rst] }
    s.inProgress = none ∧ s.hostEvents = .command 0xC000000000 :: [.rst] ∧
      ([HostEvent.rst]).head? ≠ some .rstInFlight := ⟨rfl, rfl, by decide⟩

theorem test_witness_CommandListRunsSequentially :
    let s := { State.reset with hostEvents := [.command 0x6000000000, .command 0x0000000000] }
    s.inProgress = none ∧ s.hostEvents = [0x6000000000, 0x0000000000].map HostEvent.command :=
  ⟨rfl, rfl⟩

/-- The boundary addresses 0, 1, 127 and 128 of the condition, and the last clause's three runs. -/
theorem test_witness_SetAddrStagesAValidAddress :
    [0, 1, 127, 128].map (fun a : Byte => addrValid a) = [false, true, true, false] ∧
    State.reset.bAddrV = false ∧ ∃ t u v, exec (.setAddr 3) State.reset = .next t ∧
      exec .build State.reset = .next u ∧ exec .build t = .next v :=
  ⟨by decide, rfl, _, _, _, rfl, rfl, rfl⟩

theorem test_witness_SetSpeedStagesAValidSpeed :
    [0, 28, 29].map (fun sp : Byte => speedValid sp) = [true, true, false] ∧
    ∃ t u v, exec (.setSpeed 28) { State.reset with bEstop := true } = .next t ∧
      exec .build { State.reset with bEstop := true } = .next u ∧ exec .build t = .next v :=
  ⟨by decide, _, _, _, rfl, rfl, rfl⟩

theorem test_witness_SetDirStoresTheDirection :
    State.reset.bDirV = false ∧ ∃ t u v, exec (.setDir .forward) State.reset = .next t ∧
      exec .build State.reset = .next u ∧ exec .build t = .next v := ⟨rfl, _, _, _, rfl, rfl, rfl⟩

theorem test_witness_SetEstopStoresTheFlag :
    ∃ t u v, exec (.setEstop true) State.reset = .next t ∧ exec (.setEstop false) t = .next u ∧
      exec .build u = .next v := ⟨_, _, _, rfl, rfl, rfl⟩

theorem test_witness_BuildWritesThePacketRegister :
    State.reset.bAddrV = false ∧ State.reset.bSpeedV = false ∧ State.reset.bDirV = false ∧
    State.reset.bEstop = false ∧ ∃ t, exec .build State.reset = .next t :=
  ⟨rfl, rfl, rfl, rfl, _, rfl⟩

/-- Speeds 0 and 28, with and without e-stop. -/
theorem test_witness_InstructionByteLayout :
    (0#8).toNat ≤ 28 ∧ (28#8).toNat ≤ 28 ∧ (true = true ∧ false = false) := by decide

theorem test_witness_EstopByteIgnoresTheSpeed : (28#8).toNat ≤ 28 := by decide

theorem test_witness_SerSdFramesThePacketRegister : (withPacket 0x7F 0x7F).pktValid = true := rfl

theorem test_witness_SerSdWithoutPacketRaises : State.reset.pktValid = false := rfl

/-- Two fields, a setter of one of which fails; and two writes of one field, the second of which
succeeds. -/
theorem test_witness_SetterOrderDoesNotMatter :
    (setterField (.setAddr 0) ≠ none ∧ setterField (.setSpeed 28) ≠ none ∧
      setterField (.setAddr 0) ≠ setterField (.setSpeed 28) ∧
      ∃ t₁ u₁ t₂ u₂, exec (.setAddr 0) State.reset = .next t₁ ∧ exec (.setSpeed 28) t₁ = .next u₁ ∧
        exec (.setSpeed 28) State.reset = .next t₂ ∧ exec (.setAddr 0) t₂ = .next u₂) ∧
    (setterField (.setAddr 1) = setterField (.setAddr 127) ∧
      ∃ t u, exec (.setAddr 1) State.reset = .next t ∧ exec (.setAddr 127) t = .next u ∧
        u.status = 0#3) :=
  ⟨⟨by decide, by decide, by decide, _, _, _, _, rfl, rfl, rfl, rfl⟩, rfl, _, _, rfl, rfl, rfl⟩

theorem test_witness_SettersDoNotChangeWhatIsSent :
    setterField (.setSpeed 6) ≠ none ∧ ∃ t u v, exec (.setSpeed 6) (withPacket 3 0x64) = .next t ∧
      exec .serSd (withPacket 3 0x64) = .next u ∧ exec .serSd t = .next v :=
  ⟨by decide, _, _, _, rfl, rfl, rfl⟩

/-- The longest payload that fits and the shortest that does not. -/
theorem test_witness_FramingProcedure :
    15 + 9 * [1#8, 2, 3, 4].length + 1 ≤ 52 ∧ 52 < 15 + 9 * [1#8, 2, 3, 4, 5].length + 1 := by decide

/-- The boundary counts 0, 4, 5 and 15. -/
theorem test_witness_FrameFramesTheFirstNBytes : 0 ≤ 4 ∧ 4 ≤ 4 ∧ 5 ≤ 5 ∧ 5 ≤ 15 := by decide

theorem test_witness_FixedPacketsFrameTheirConstants :
    (Instr.serIdle, 0xFF#8, 0x00#8, 0xFF#8) ∈
      [(Instr.serReset, 0x00#8, 0x00#8, 0x00#8), (.serIdle, 0xFF#8, 0x00#8, 0xFF#8)] := by decide

theorem test_witness_BroadcastStopKindsDifferInTwoCells :
    ∃ t u, exec .serBstopImm State.reset = .next t ∧ exec .serBstopFloat State.reset = .next u :=
  ⟨_, _, rfl, rfl⟩

theorem test_witness_BufClearClearsTheBuffer :
    Memory.wf [(0, true), (51, true)] = true ∧ Memory.wf [(52, true)] = false ∧
    Memory.wf [(3, false)] = false ∧ Memory.wf [(4, true), (3, true)] = false := by decide

/-- Counts 1 and 4. -/
theorem test_witness_FramedBytesReadBack : (1 ≤ 1 ∧ 1 ≤ 4) ∧ (1 ≤ 4 ∧ 4 ≤ 4) := by decide

/-- The buffer of `FRAME 1, 0xA5` (the example of R64) written out cell by cell, and counts 1 and 4. -/
theorem test_witness_ByteViewOfAFramedPacket :
    CarriesPacket ((([0, 1, 2, 3, 4, 5, 6, 7, 8, 9, 10, 11, 12, 13, 14] : List Nat) ++
      [16, 18, 21, 23, 24]).map (·, true)) [0xA5#8] ∧ (1 ≤ 1 ∧ 1 ≤ 4) ∧ (1 ≤ 4 ∧ 4 ≤ 4) :=
  ⟨⟨by decide, by decide, fun k j hk hj => by
    obtain rfl : k = 0 := Nat.lt_one_iff.1 hk
    revert j; decide, by decide⟩, by decide⟩

theorem test_witness_ChecksumIsTheExclusiveOr :
    [0x23#8, 0x78].Perm [0x78, 0x23] := List.Perm.swap _ _ _

/-- The last cell, and the longest and shortest writes that end there. -/
theorem test_witness_BufferWritesAreMsbFirst : 51 ≤ 51 ∧ (1 ≤ 52 ∧ 0 + 52 ≤ 52) ∧ (1 ≤ 1 ∧ 51 + 1 ≤ 52) := by
  decide

theorem test_witness_MemReadIsTheWeightedSum :
    (1 ≤ 8 ∧ 44 + 8 ≤ 52) ∧ (∃ m', memWrite 44 0xA5#8 [] = .ok m') ∧
    ∃ t u, exec .build State.reset = .next t ∧
      exec .build { State.reset with bb := [(7, true)] } = .next u :=
  ⟨by decide, ⟨_, rfl⟩, _, _, rfl, rfl⟩

/-- A state other than reset: an address staged and a command in progress. -/
theorem test_witness_StepKeepsTheInvariant :
    let s := { busy 0x6000000000 [] with bAddr := 127, bAddrV := true, status := 5 }
    StateInvariant s ∧ ∃ t, step s = .next t :=
  ⟨⟨rfl, fun _ => by decide, nofun, nofun, nofun, .inl rfl, by decide, fun _ => rfl⟩, _, rfl⟩

/-- A step without a reset in a state with a valid bit set, and a command that fails. -/
theorem test_witness_ValidBitsStaySetUntilReset :
    let s := { busy 0x6000000000 [] with bAddr := 1, bAddrV := true }
    (∃ t, step s = .next t) ∧ s.hostEvents.head? ≠ some .rstInFlight ∧
      ¬(s.inProgress = none ∧ s.hostEvents.head? = some .rst) ∧ s.bAddrV = true ∧
      ∃ t, exec (.setAddr 0) s = .next t ∧ t.status ≠ 0#3 :=
  ⟨⟨_, rfl⟩, by decide, by decide, rfl, _, rfl, by decide⟩

theorem test_witness_ErrorsWriteOnlyStatus :
    (∃ t, exec (.frame 5 0 0 0 0) State.reset = .next t ∧ t.status ≠ 0#3) ∧
    ∃ t, executeWord 0x2000000123#40 State.reset = .next t ∧ t.status ≠ 0#3 :=
  ⟨⟨_, rfl, by decide⟩, _, rfl, by decide⟩

/-- A command outside each clause's exception. -/
theorem test_witness_RegistersHaveTheirOwnWriters :
    (∃ t, exec (.setAddr 1) State.reset = .next t) ∧ setterField (.setAddr 1) ≠ some .speed ∧
    setterField (.setAddr 1) ≠ some .dir ∧ setterField (.setAddr 1) ≠ some .estop ∧
    setterField Instr.build ≠ some .addr ∧ Instr.setAddr 1 ≠ .build ∧
    mayWriteBuffer (.setAddr 1) = false := ⟨⟨_, rfl⟩, by decide⟩

/-- Each code is reached at a boundary operand: 128, 29, 5, and no packet. -/
theorem test_witness_StatusNamesTheOutcome :
    ([.setAddr 128, .setSpeed 29, .frame 5 0 0 0 0, .serSd].map
      (fun i => (next? (exec i State.reset)).map (·.status))) = [some 1, some 2, some 3, some 5] := by
  decide

/-- Two different states the host cannot tell apart, and a run of each alternative. -/
theorem test_witness_HostSeesTheBuilderOnlyThroughBuild :
    HostAgree State.reset { State.reset with bSpeed := 7 } ∧ State.reset.status = 0#3 ∧
    (State.reset.bSpeedV = false ∧ ∃ t, exec (.setSpeed 0) State.reset = .next t) ∧
    (State.reset.bDirV = false ∧ ∃ t, exec (.setDir .forward) State.reset = .next t) ∧
    (State.reset.bAddrV = false ∧ ∃ t, exec (.setAddr 3) State.reset = .next t) :=
  ⟨⟨rfl, rfl, rfl, rfl, rfl, rfl, rfl, rfl, rfl, rfl, rfl, rfl, rfl⟩, rfl, ⟨rfl, _, rfl⟩, ⟨rfl, _, rfl⟩,
    rfl, _, rfl⟩

theorem test_witness_OutputPortsShowTheRegisters :
    ({ State.reset with rspValid := true }).rspValid = true ∧ 51 < 52 := ⟨rfl, by decide⟩

theorem test_witness_InstancesAreIndependent :
    let p : Platform := [State.reset, busy 0x6000000000 []]
    (∃ q, platformStep 1 p = .next q) ∧ 0 ≠ 1 ∧ p[1]? = some (busy 0x6000000000 []) ∧
      ∃ t, step (busy 0x6000000000 []) = .next t := ⟨⟨_, rfl⟩, by decide, rfl, _, rfl⟩

theorem test_witness_AssemblerReproducesEveryWord :
    decode 0x11A5000000#40 = .ok (.frame 1 0xA5 0 0 0) ∧
    assemble (.frame 1 [0xA5, 0, 0, 0]) = some [0x11A5000000#40] ∧ [0xA5, 0, 0, 0].length = 4 :=
  ⟨rfl, by decide, rfl⟩

/-- Each clause at its first value out of range: a count, a number of bytes, a byte, a flag. -/
theorem test_witness_AssemblerEmitsLegalWordsOnly :
    assemble .serIdle = some [0x9000000000#40] ∧ 15 < 16 ∧ 4 < [0, 0, 0, 0, 0].length ∧
    (∃ b ∈ [256], 255 < b) ∧ 255 < 256 ∧ 1 < 2 := by decide

theorem test_witness_Frame3cFramesABaselinePacket : 0 ≤ 255 ∧ 255 ≤ 255 := by decide

/-- An operand of each setter that succeeds, and one that fails, both in range. -/
theorem test_witness_SendSdSendsTheStagedPacket :
    127 ≤ 255 ∧ 28 ≤ 255 ∧ 1 ≤ 1 ∧ (0 ≤ 255 ∧ 255 ≤ 255 ∧ 0 ≤ 1) := by decide

end Sys2Proof.Tests
end

section
/-! SUPPORT. Proofs of the statements about the state (10_state.md): the registers' writers, the
invariant, the handshake of `step`, and what the host can tell apart. -/

namespace Sys2Proof.Machine

/-! ### What a command leaves unchanged -/

/-- A command that is no buffer writer (R22, R23) leaves `BB` and `LEN` alone. -/
theorem exec_keeps_buffer {i : Instr} {s t : State} (hi : mayWriteBuffer i = false)
    (h : exec i s = .next t) : t.bb = s.bb ∧ t.len = s.len := by
  cases i with
  | setAddr a =>
    simp only [exec, execSetAddr] at h
    split at h
    · rw [complete_cases h]; exact ⟨rfl, rfl⟩
    · rw [raise_cases h]; exact ⟨rfl, rfl⟩
  | setSpeed sp =>
    simp only [exec, execSetSpeed] at h
    split at h
    · rw [complete_cases h]; exact ⟨rfl, rfl⟩
    · rw [raise_cases h]; exact ⟨rfl, rfl⟩
  | setDir d => rw [complete_cases h]; exact ⟨rfl, rfl⟩
  | setEstop e => rw [complete_cases h]; exact ⟨rfl, rfl⟩
  | build => rw [complete_cases h]; exact ⟨rfl, rfl⟩
  | frame | serSd | serReset | serIdle | serBstopImm | serBstopFloat | bufClear => cases hi

/-- Only its own setter writes a field of the builder (R11). -/
theorem exec_keeps_builder {i : Instr} {s t : State} (h : exec i s = .next t) :
    (setterField i ≠ some .addr → t.bAddr = s.bAddr ∧ t.bAddrV = s.bAddrV) ∧
    (setterField i ≠ some .speed → t.bSpeed = s.bSpeed ∧ t.bSpeedV = s.bSpeedV) ∧
    (setterField i ≠ some .dir → t.bDir = s.bDir ∧ t.bDirV = s.bDirV) ∧
    (setterField i ≠ some .estop → t.bEstop = s.bEstop) := by
  obtain ⟨_, rfl⟩ | ⟨_, rfl, _, rfl⟩ | ⟨_, rfl, _, rfl⟩ | ⟨_, rfl, rfl⟩ | ⟨_, rfl, rfl⟩ |
    ⟨_, rfl⟩ | ⟨_, _, _, rfl, _⟩ | ⟨_, _, rfl, _⟩ := exec_cases h <;> simp [setterField]

/-- Only BUILD writes the packet register (R20). -/
theorem exec_keeps_packet {i : Instr} {s t : State} (h : exec i s = .next t) :
    i ≠ .build → t.pktAddr = s.pktAddr ∧ t.pktInstr = s.pktInstr ∧ t.pktValid = s.pktValid := by
  obtain ⟨_, rfl⟩ | ⟨_, _, _, rfl⟩ | ⟨_, _, _, rfl⟩ | ⟨_, _, rfl⟩ | ⟨_, _, rfl⟩ | ⟨rfl, rfl⟩ |
    ⟨_, _, _, rfl, _⟩ | ⟨_, _, rfl, _⟩ := exec_cases h <;> simp

/-- A command that does not end with OK changes STATUS and nothing else (R97). -/
theorem exec_failed {i : Instr} {s t : State} (h : exec i s = .next t) (hst : t.status ≠ 0#3) :
    t = { s with status := t.status } := by
  obtain ⟨_, rfl⟩ | ⟨_, _, _, rfl⟩ | ⟨_, _, _, rfl⟩ | ⟨_, _, rfl⟩ | ⟨_, _, rfl⟩ |
    ⟨_, rfl⟩ | ⟨_, _, _, rfl, _⟩ | ⟨_, _, rfl, _⟩ := exec_cases h
  case inl => rfl
  all_goals exact absurd rfl hst

/-- No command clears a valid bit of the builder (R19). -/
theorem exec_keeps_validBits {i : Instr} {s t : State} (h : exec i s = .next t) :
    (s.bAddrV = true → t.bAddrV = true) ∧ (s.bSpeedV = true → t.bSpeedV = true) ∧
      (s.bDirV = true → t.bDirV = true) := by
  obtain ⟨_, rfl⟩ | ⟨_, _, _, rfl⟩ | ⟨_, _, _, rfl⟩ | ⟨_, _, rfl⟩ | ⟨_, _, rfl⟩ | ⟨_, rfl⟩ |
    ⟨_, _, _, rfl, _⟩ | ⟨_, _, rfl, _⟩ := exec_cases h <;> simp

/-! ### What a command word does -/

theorem executeWord_of_decode {w : CommandWord} {i : Instr} (hw : decode w = .ok i) (s : State) :
    executeWord w s = exec i s := by
  simp only [executeWord, hw]

theorem executeWord_interface {w : CommandWord} {s t : State} (h : executeWord w s = .next t) :
    t.inProgress = s.inProgress ∧ t.rspValid = s.rspValid ∧ t.hostEvents = s.hostEvents := by
  obtain ⟨i, -, hi⟩ | ⟨-, rfl⟩ := executeWord_cases h
  · exact exec_interface hi
  · exact ⟨rfl, rfl, rfl⟩

theorem executeWord_keeps_validBits {w : CommandWord} {s t : State}
    (h : executeWord w s = .next t) :
    (s.bAddrV = true → t.bAddrV = true) ∧ (s.bSpeedV = true → t.bSpeedV = true) ∧
      (s.bDirV = true → t.bDirV = true) := by
  obtain ⟨i, -, hi⟩ | ⟨-, rfl⟩ := executeWord_cases h
  · exact exec_keeps_validBits hi
  · exact ⟨id, id, id⟩

/-! ### The invariant -/

/-- A frame that fits leaves a LEN of R23, its cells holding the frame it counts (R118). -/
theorem lenFrame_of_packetBit {d : List Byte} {m : Memory} (hd : d.length ≤ 4)
    (h : ∀ q, q < 16 + 9 * d.length → readCell m q = packetBit d q) :
    ∃ n, n ≤ 4 ∧ (BitVec.ofNat 6 (16 + 9 * d.length)).toNat = 16 + 9 * n ∧ HoldsFrame m n :=
  ⟨d.length, hd, Nat.mod_eq_of_lt (by omega), holdsFrame_of_packetBit h⟩

namespace StateInvariant

variable {s t : State}

/-- BUILD's address is a valid one, the default 3 included (R81). -/
theorem builderAddr_bounds (hs : StateInvariant s) :
    1 ≤ (builderAddr s).toNat ∧ (builderAddr s).toNat ≤ 127 := by
  unfold builderAddr
  split
  · next hv => exact hs.stagedAddr hv
  · decide

/-- BUILD's speed is a valid one, the default 0 included (R81). -/
theorem builderSpeed_le (hs : StateInvariant s) : (builderSpeed s).toNat ≤ 28 := by
  unfold builderSpeed
  split
  · next hv => exact hs.stagedSpeed hv
  · decide

theorem setStatus (hs : StateInvariant s) {c : BitVec 3} (hc : c.toNat ≤ 5) :
    StateInvariant { s with status := c } := { hs with statusCode := hc }

theorem respond (hs : StateInvariant s) : StateInvariant (respond s) :=
  { hs with busySilent := nofun }

/-- Every command keeps the invariant. -/
theorem exec {i : Instr} (hs : StateInvariant s) (h : exec i s = .next t) : StateInvariant t := by
  obtain ⟨e, rfl⟩ | ⟨a, -, ha, rfl⟩ | ⟨sp, -, hsp, rfl⟩ | ⟨d, -, rfl⟩ | ⟨e, -, rfl⟩ | ⟨-, rfl⟩ |
    ⟨d, m, hd, rfl, hread, hwf⟩ | ⟨m, -, rfl, -, hwf⟩ := exec_cases h
  · exact hs.setStatus e.number_le
  · exact { hs with
      stagedAddr := fun _ => addrValid_iff.mp ha
      statusCode := StatusCode.ok.number_le }
  · exact { hs with
      stagedSpeed := fun _ => speedValid_iff.mp hsp
      statusCode := StatusCode.ok.number_le }
  · exact { hs with statusCode := StatusCode.ok.number_le }
  · exact { hs with statusCode := StatusCode.ok.number_le }
  · exact { hs with
      packetAddr := fun _ => hs.builderAddr_bounds
      packetInstr := fun _ => ⟨_, _, _, hs.builderSpeed_le, rfl⟩
      statusCode := StatusCode.ok.number_le }
  · exact { hs with
      bufferCanonical := hwf hs.bufferCanonical
      lenFrame := .inr (lenFrame_of_packetBit hd fun q hq => by rw [hread, if_pos hq])
      statusCode := StatusCode.ok.number_le }
  · exact { hs with
      bufferCanonical := hwf hs.bufferCanonical
      lenFrame := .inl rfl
      statusCode := StatusCode.ok.number_le }

theorem executeWord {w : CommandWord} (hs : StateInvariant s)
    (h : executeWord w s = .next t) : StateInvariant t := by
  obtain ⟨i, -, hi⟩ | ⟨-, rfl⟩ := executeWord_cases h
  · exact hs.exec hi
  · exact hs.setStatus (by decide)

/-- Right after a reset the invariant holds, whatever the host drives next. -/
theorem reset_withEvents (rest : List HostEvent) :
    StateInvariant { State.reset with hostEvents := rest } where
  bufferCanonical := State.reset_bb_wf
  stagedAddr := nofun
  stagedSpeed := nofun
  packetAddr := nofun
  packetInstr := nofun
  lenFrame := .inl rfl
  statusCode := StatusCode.ok.number_le
  busySilent := nofun

end StateInvariant

/-- Settles O40, by the cases of `step` and, for a completing step, the cases of `exec`. -/
theorem stepKeepsTheInvariant : Obligations.StepKeepsTheInvariant := by
  intro s t hs h
  obtain ⟨_, rest, -, -, rfl⟩ | ⟨w, -, hw⟩ | ⟨w, rest, -, -, rfl⟩ | ⟨-, -, rfl⟩ := step_cases h
  · exact .reset_withEvents rest
  · exact hs.respond.executeWord hw
  · exact { hs with busySilent := fun _ => rfl }
  · exact hs

/-! ### What the host can tell apart -/

/-- Two outcomes the host cannot tell apart: next states that `HostAgree`. -/
def OutcomesAgree (x y : Host.Outcome State Fault Refusal) : Prop :=
  ∃ s t, x = .next s ∧ y = .next t ∧ HostAgree s t

namespace HostAgree

variable {s t : State}

theorem refl (s : State) : HostAgree s s :=
  ⟨rfl, rfl, rfl, rfl, rfl, rfl, rfl, rfl, rfl, rfl, rfl, rfl, rfl⟩

theorem raise (h : HostAgree s t) (e : StatusCode) : OutcomesAgree (raise e s) (raise e t) :=
  ⟨_, _, rfl, rfl, { h with status := rfl }⟩

theorem complete (h : HostAgree s t) : OutcomesAgree (complete s) (complete t) :=
  ⟨_, _, rfl, rfl, { h with status := rfl }⟩

theorem completeWithLen (h : HostAgree s t) (n : Nat) :
    OutcomesAgree (completeWithLen n s) (completeWithLen n t) :=
  HostAgree.complete { h with len := rfl }

theorem setBuffer (h : HostAgree s t) (m : Memory) : HostAgree { s with bb := m } { t with bb := m } :=
  { h with bb := rfl }

theorem respond (h : HostAgree s t) : HostAgree (respond s) (respond t) :=
  { h with inProgress := rfl, rspValid := rfl }

/-- A framing reads the buffer alone. -/
theorem frame (h : HostAgree s t) {d : List Byte} (hd : d.length ≤ 4) :
    OutcomesAgree (frame d s) (frame d t) := by
  obtain ⟨m, hm, -, -⟩ := renderPacket_spec d s.bb hd
  simp only [Machine.frame, if_neg (requiredBits_fits hd), ← h.bb, hm]
  exact (h.setBuffer m).completeWithLen _

/-- A command reads of the builder only what BUILD makes of it, and completes on both states. -/
theorem exec (h : HostAgree s t) (i : Instr) : OutcomesAgree (exec i s) (exec i t) := by
  cases i with
  | frame n b0 b1 b2 b3 =>
    simp only [Machine.exec, execFrame]
    split
    · exact h.raise _
    · exact h.frame (by simp)
  | setAddr a =>
    simp only [Machine.exec, execSetAddr]
    split
    · exact HostAgree.complete { h with addr := rfl }
    · exact h.raise _
  | setSpeed sp =>
    simp only [Machine.exec, execSetSpeed]
    split
    · exact HostAgree.complete { h with speed := rfl }
    · exact h.raise _
  | setDir d => exact HostAgree.complete { h with dir := rfl }
  | setEstop e => exact HostAgree.complete { h with estop := rfl }
  | build =>
    have hinstr : instrByte (builderDir s) (builderSpeed s) s.bEstop =
        instrByte (builderDir t) (builderSpeed t) t.bEstop := by rw [h.dir, h.speed, h.estop]
    exact HostAgree.complete { h with pktAddr := h.addr, pktInstr := hinstr, pktValid := rfl }
  | serSd =>
    simp only [Machine.exec, execSerSd, ← h.pktValid, ← h.pktAddr, ← h.pktInstr]
    split
    · exact h.frame (by simp)
    · exact h.raise _
  | serReset => exact h.frame (d := baselinePayload 0x00#8 0x00#8) (by simp)
  | serIdle => exact h.frame (d := baselinePayload 0xFF#8 0x00#8) (by simp)
  | serBstopImm => exact h.frame (d := baselinePayload 0x00#8 0x40#8) (by simp)
  | serBstopFloat => exact h.frame (d := baselinePayload 0x00#8 0x50#8) (by simp)
  | bufClear =>
    obtain ⟨m, hm⟩ : ∃ m, memWrite 0 0#52 s.bb = .ok m := ⟨_, memWrite_ok (Nat.le_refl _) _ _⟩
    simp only [Machine.exec, execBufClear, ← h.bb, hm]
    exact (h.setBuffer m).completeWithLen 0

theorem executeWord (h : HostAgree s t) (w : CommandWord) :
    OutcomesAgree (executeWord w s) (executeWord w t) := by
  unfold Machine.executeWord
  split
  · exact h.exec _
  · exact h.raise _

/-- A step takes the same event, or completes the same word, on both states. -/
theorem step (h : HostAgree s t) : OutcomesAgree (step s) (step t) := by
  unfold Machine.step
  rw [← h.inProgress, ← h.hostEvents]
  split
  · exact ⟨_, _, rfl, rfl, .refl _⟩
  · exact h.respond.executeWord _
  · exact ⟨_, _, rfl, rfl, { h with inProgress := rfl, rspValid := rfl, hostEvents := rfl }⟩
  · exact ⟨_, _, rfl, rfl, .refl _⟩
  · exact ⟨_, _, rfl, rfl, .refl _⟩
  · exact ⟨_, _, rfl, rfl, h⟩

/-- The ports show no field of the builder (R11). -/
theorem registerOutputs (h : HostAgree s t) : registerOutputs s = registerOutputs t := by
  simp only [Machine.registerOutputs, h.status, h.len, h.bb, h.pktValid, h.pktAddr, h.pktInstr]

theorem readOutputs (h : HostAgree s t) (k : Nat) : readOutputs k s = readOutputs k t := by
  simp only [Machine.readOutputs, h.rspValid, h.registerOutputs]

end HostAgree

/-- Staging a default of R81 where nothing is staged changes nothing the host can see (R27). -/
theorem hostAgree_of_default_staged {s t : State} (hst : s.status = 0#3)
    (h : (s.bSpeedV = false ∧ exec (.setSpeed 0#8) s = .next t) ∨
      (s.bDirV = false ∧ exec (.setDir .forward) s = .next t) ∨
      (s.bAddrV = false ∧ exec (.setAddr 3#8) s = .next t)) : HostAgree s t := by
  obtain ⟨hv, h⟩ | ⟨hv, h⟩ | ⟨hv, h⟩ := h
  · rw [complete_cases h]
    exact { HostAgree.refl s with speed := by simp [builderSpeed, hv], status := hst }
  · rw [complete_cases h]
    exact { HostAgree.refl s with dir := by simp [builderDir, hv], status := hst }
  · rw [complete_cases h]
    exact { HostAgree.refl s with addr := by simp [builderAddr, hv], status := hst }

/-- Settles O45: `HostAgree` is kept by every step and decides every read. -/
theorem hostSeesTheBuilderOnlyThroughBuild : Obligations.HostSeesTheBuilderOnlyThroughBuild :=
  ⟨fun _ _ h => ⟨h.readOutputs, h.step⟩, fun _ _ hst h => hostAgree_of_default_staged hst h⟩

/-! ### The handshake -/

theorem cmdReady_iff {s : State} : cmdReady s = true ↔ s.inProgress = none :=
  Option.isNone_iff_eq_none

theorem cmdReady_eq_false_iff {s : State} :
    cmdReady s = false ↔ ∃ w, s.inProgress = some w := by
  simp [cmdReady, Option.isSome_iff_exists]

/-- Every command completes: no meaning faults (R92). -/
theorem exec_total (i : Instr) (s : State) : ∃ t, exec i s = .next t := by
  obtain ⟨t, -, h, -⟩ := (HostAgree.refl s).exec i
  exact ⟨t, h⟩

theorem executeWord_total (w : CommandWord) (s : State) : ∃ t, executeWord w s = .next t := by
  obtain ⟨t, -, h, -⟩ := (HostAgree.refl s).executeWord w
  exact ⟨t, h⟩

/-- Settles O14: the accepting step, then the completing step. -/
theorem acceptedCommandReachesItsResponse : Obligations.AcceptedCommandReachesItsResponse := by
  intro s w rest hip hev hrest
  obtain ⟨u, hu⟩ := executeWord_total w (respond (acceptCommand w { s with hostEvents := rest }))
  obtain ⟨hidle, hvalid, hevents⟩ := executeWord_interface hu
  refine ⟨_, u, step_accept hip hev, rfl, ?_, hvalid, cmdReady_iff.mpr hidle, hevents⟩
  exact (step_inProgress (w := w) rfl hrest).trans hu

/-- A step on which no reset lands completes the command in progress, accepts one, or waits. -/
theorem step_cases_of_no_reset {s t : State} (h : step s = .next t)
    (hfly : s.hostEvents.head? ≠ some .rstInFlight)
    (hrst : ¬(s.inProgress = none ∧ s.hostEvents.head? = some .rst)) :
    (∃ w, s.inProgress = some w ∧ executeWord w (respond s) = .next t) ∨
    (∃ w rest, s.inProgress = none ∧ s.hostEvents = .command w :: rest ∧
      t = { s with inProgress := some w, rspValid := false, hostEvents := rest }) ∨
    (s.inProgress = none ∧ s.hostEvents = [] ∧ t = s) := by
  obtain ⟨e, rest, he, hev, -⟩ | hcase := step_cases h
  · obtain rfl | rfl := he
    · cases hip : s.inProgress with
      | none => exact absurd ⟨hip, by rw [hev]; rfl⟩ hrst
      | some w => exact .inl ⟨w, rfl, by rw [← step_inProgress hip hfly, h]⟩
    · exact absurd (by rw [hev]; rfl) hfly
  · exact hcase

/-- Settles O41: no case of a step without reset clears a valid bit, and a failing command writes
STATUS alone. -/
theorem validBitsStaySetUntilReset : Obligations.ValidBitsStaySetUntilReset := by
  refine ⟨fun s t h hfly hrst => ?_, fun i s t h hst => ?_⟩
  · obtain ⟨w, -, hw⟩ | ⟨w, rest, -, -, rfl⟩ | ⟨-, -, rfl⟩ := step_cases_of_no_reset h hfly hrst
    · exact executeWord_keeps_validBits (s := respond s) hw
    · exact ⟨id, id, id⟩
    · exact ⟨id, id, id⟩
  · rw [exec_failed h hst]
    exact ⟨rfl, rfl, rfl, rfl, rfl, rfl, rfl⟩

/-- Settles O43, register by register. -/
theorem registersHaveTheirOwnWriters : Obligations.RegistersHaveTheirOwnWriters := by
  intro i s t h
  obtain ⟨haddr, hspeed, hdir, hestop⟩ := exec_keeps_builder h
  exact ⟨haddr, hspeed, hdir, hestop, exec_keeps_packet h, fun hi => exec_keeps_buffer hi h,
    exec_interface h⟩

/-- Settles O6. -/
theorem stepRunsTheDecodedCommand : Obligations.StepRunsTheDecodedCommand := by
  intro s w i hip hev hw
  rw [step_inProgress hip hev, executeWord_of_decode hw]
  rfl

/-- No reset lands on a placed command (log 2). -/
theorem placeCommand_head?_ne_rstInFlight (w : CommandWord) (s : State) :
    (placeCommand w s).hostEvents.head? ≠ some .rstInFlight := by
  intro h
  have hdrop := List.head?_dropWhile_not (· == HostEvent.rstInFlight) s.hostEvents
  rw [placeCommand_hostEvents] at h
  rw [h] at hdrop
  exact absurd hdrop (by decide)

/-- A 40-bit number is its own table word. -/
theorem tableWord_of_lt {w : Nat} (hw : w < 2 ^ 40) : tableWord 40 w = BitVec.ofNat 40 w := by
  rw [tableWord, Nat.mod_eq_of_lt hw]

/-- Settles O7: placing a word leaves no reset in front of it, so the next step completes it. -/
theorem placedWordRunsNext : Obligations.PlacedWordRunsNext := by
  intro s w i hw hdec
  rw [State.withFetchWord, tableWord_of_lt hw,
    step_inProgress (placeCommand_inProgress _ s) (placeCommand_head?_ne_rstInFlight _ s),
    executeWord_of_decode hdec]
  rfl

/-- Settles O9, clause by clause: accept, wait, and a busy block that only completes. -/
theorem blockTakesOneCommandAtATime : Obligations.BlockTakesOneCommandAtATime := by
  refine ⟨fun s w rest hready hev => step_accept (cmdReady_iff.mp hready) hev,
    fun s hready hev => ?_, fun s t w rest hbusy hev h => ?_⟩
  · simp only [step, cmdReady_iff.mp hready, hev]
  · obtain ⟨v, hip⟩ := cmdReady_eq_false_iff.mp hbusy
    rw [step_inProgress hip (by simp [hev])] at h
    obtain ⟨hidle, -, hevents⟩ := executeWord_interface h
    exact ⟨hevents.trans hev, cmdReady_iff.mpr hidle⟩

theorem readOutputs_of_rspValid {s : State} (h : s.rspValid = true) (k : Nat) :
    readOutputs k s = registerOutputs s := by
  rw [readOutputs, if_pos h]

/-- Settles O46: the read is the registers, whatever its number. -/
theorem outputPortsShowTheRegisters : Obligations.OutputPortsShowTheRegisters := by
  intro s k h
  rw [readOutputs_of_rspValid h]
  exact ⟨rfl, rfl, fun p hp => Vector.getElem_ofFn hp, rfl, rfl, rfl⟩

end Sys2Proof.Machine
end

section
/-! SUPPORT. Proofs of the statements about the bit buffer (20_memory.md): accesses past its end,
the order of the bits, the byte view, that no command reads it, and command lists (R43). -/

namespace Sys2Proof.Machine

/-! ### Accesses past the buffer -/

theorem inBuffer_eq_false {p n : Nat} (h : 52 < p + n) : inBuffer p n = false :=
  decide_eq_false (Nat.not_le.mpr h)

theorem bitSet_overrun {p : Nat} (h : 52 < p + 1) (v : Bool) (m : Memory) :
    bitSet p v m = .error .bufferOverrun := by
  simp [bitSet, inBuffer_eq_false h]

theorem memWrite_overrun {p n : Nat} (h : 52 < p + n) (v : BitVec n) (m : Memory) :
    memWrite p v m = .error .bufferOverrun := by
  simp [memWrite, inBuffer_eq_false h]

theorem memRead_overrun {p n : Nat} (h : 52 < p + n) (m : Memory) :
    memRead p n m = .error .bufferOverrun := by
  simp [memRead, inBuffer_eq_false h]

/-- Every step answers a next state (R92). -/
theorem step_total (s : State) : ∃ t, step s = .next t := by
  obtain ⟨t, -, h, -⟩ := (HostAgree.refl s).step
  exact ⟨t, h⟩

/-- Settles O12: steps are total, and the check of R37 is the first thing each buffer
operation does. -/
theorem noStepLeavesTheBuffer : Obligations.NoStepLeavesTheBuffer := by
  refine ⟨fun s f hf => ?_, fun _ v m hp => bitSet_overrun hp v m,
    fun _ _ v m hp => memWrite_overrun hp v m, fun _ _ m hp => memRead_overrun hp m⟩
  obtain ⟨t, ht⟩ := step_total s
  rw [ht] at hf
  cases hf

/-! ### The order of the bits -/

theorem msbFirst_ofBool (v : Bool) : msbFirst (BitVec.ofBool v) = [v] := by
  cases v <;> rfl

/-- A one-bit `MemWrite` is a `BitSet`, past the buffer too. -/
theorem memWrite_ofBool (p : Nat) (v : Bool) (m : Memory) :
    memWrite p (BitVec.ofBool v) m = bitSet p v m := by
  simp only [memWrite, bitSet, msbFirst_ofBool, writeCells]

/-- Settles O37, from what a read answers after each of the two writes. -/
theorem bufferWritesAreMsbFirst : Obligations.BufferWritesAreMsbFirst := by
  refine ⟨fun p v m hp => ⟨_, bitSet_ok (Nat.lt_succ_of_le hp) v m,
    fun q => readCell_writeCell m p q v⟩, fun p n v m _ hp => ?_, memWrite_ofBool⟩
  have hw := memWrite_ok hp v m
  refine ⟨_, hw, fun j hj => ?_, fun q hq => ?_⟩
  · rw [readCell_memWrite hw, if_pos (by omega), Nat.add_sub_cancel_left, BitVec.getMsbD]
    simp [hj]
  · rw [readCell_memWrite hw, if_neg (by omega)]

/-! ### What a read answers -/

/-- A read inside the buffer answers the weighted sum of its cells (R34). -/
theorem memRead_weightedSum {p n : Nat} (hp : p + n ≤ Config.capacity) (m : Memory) :
    ∃ v : BitVec n, memRead p n m = .ok v ∧
      v.toNat = ∑ j ∈ Finset.range n, (readCell m (p + j)).toNat * 2 ^ (n - 1 - j) := by
  have hin : inBuffer p n = true := decide_eq_true hp
  refine ⟨_, if_pos hin, ?_⟩
  have hlt := natOfBits_lt ((List.range n).map fun j => readCell m (p + j))
  rw [List.length_map, List.length_range] at hlt
  rw [BitVec.toNat_ofNat, Nat.mod_eq_of_lt hlt, natOfBits_range]

/-- A read answers what `MemWrite` wrote there. -/
theorem memRead_memWrite {p n : Nat} {v : BitVec n} {m m' : Memory} (h : memWrite p v m = .ok m') :
    memRead p n m' = .ok v := by
  refine memRead_eq (memWrite_cases h).1 v fun j hj => ?_
  rw [readCell_memWrite h, if_pos (by omega), Nat.add_sub_cancel_left]

/-! ### No command reads the buffer -/

/-- Given the buffer, an outcome that does not depend on it: one next state `t`, and one pattern `f`
of cells, each written with a fixed bit or left as it was. -/
def BufferBlind (F : Memory → Host.Outcome State Fault Refusal) : Prop :=
  ∃ (t : State) (f : Nat → Option Bool), ∀ m, ∃ m', F m = .next { t with bb := m' } ∧
    ∀ q, readCell m' q = (f q).getD (readCell m q)

namespace BufferBlind

/-- An outcome that keeps the buffer writes no cell. -/
theorem of_keeps (t : State) : BufferBlind fun m => .next { t with bb := m } :=
  ⟨t, fun _ => none, fun m => ⟨m, rfl, fun _ => rfl⟩⟩

/-- An outcome that writes fixed bits into the cells below `n`, and no other cell, is blind. -/
theorem of_writesBelow {F : Memory → Host.Outcome State Fault Refusal} (t : State) (n : Nat)
    (g : Nat → Bool) (h : ∀ m, ∃ m', F m = .next { t with bb := m' } ∧
      ∀ q, readCell m' q = if q < n then g q else readCell m q) : BufferBlind F := by
  refine ⟨t, fun q => if q < n then some (g q) else none, fun m => ?_⟩
  obtain ⟨m', hm', hread⟩ := h m
  refine ⟨m', hm', fun q => ?_⟩
  by_cases hq : q < n <;> simp [hread, hq]

/-- A framing writes the bits of its packet. -/
theorem frame (s : State) {d : List Byte} (hd : d.length ≤ 4) :
    BufferBlind fun m => frame d { s with bb := m } :=
  of_writesBelow { s with len := BitVec.ofNat 6 (16 + 9 * d.length), status := 0#3 }
    (16 + 9 * d.length) (packetBit d) fun m =>
      let ⟨m', hm', hread, _⟩ := frame_spec d { s with bb := m } hd
      ⟨m', hm', hread⟩

/-- BUF_CLEAR writes a 0 into each cell. -/
theorem bufClear (s : State) : BufferBlind fun m => execBufClear { s with bb := m } :=
  of_writesBelow { s with len := 0#6, status := 0#3 } 52 (fun _ => false) fun m =>
    let ⟨m', hm', hread, _⟩ := execBufClear_spec { s with bb := m }
    ⟨m', hm', hread⟩

/-- No command reads the buffer (R34). -/
theorem exec (i : Instr) (s : State) : BufferBlind fun m => exec i { s with bb := m } := by
  cases i with
  | frame n b0 b1 b2 b3 =>
    simp only [Machine.exec, execFrame]
    split
    · exact of_keeps { s with status := 3#3 }
    · exact frame s (by simp)
  | setAddr a =>
    simp only [Machine.exec, execSetAddr]
    split
    · exact of_keeps { s with bAddr := a, bAddrV := true, status := 0#3 }
    · exact of_keeps { s with status := 1#3 }
  | setSpeed sp =>
    simp only [Machine.exec, execSetSpeed]
    split
    · exact of_keeps { s with bSpeed := sp, bSpeedV := true, status := 0#3 }
    · exact of_keeps { s with status := 2#3 }
  | setDir d => exact of_keeps { s with bDir := d, bDirV := true, status := 0#3 }
  | setEstop e => exact of_keeps { s with bEstop := e, status := 0#3 }
  | build =>
    exact of_keeps { s with
      pktAddr := builderAddr s, pktInstr := instrByte (builderDir s) (builderSpeed s) s.bEstop,
      pktValid := true, status := 0#3 }
  | serSd =>
    simp only [Machine.exec, execSerSd]
    split
    · exact frame s (by simp)
    · exact of_keeps { s with status := 5#3 }
  | serReset => exact frame s (d := baselinePayload 0x00#8 0x00#8) (by simp)
  | serIdle => exact frame s (d := baselinePayload 0xFF#8 0x00#8) (by simp)
  | serBstopImm => exact frame s (d := baselinePayload 0x00#8 0x40#8) (by simp)
  | serBstopFloat => exact frame s (d := baselinePayload 0x00#8 0x50#8) (by simp)
  | bufClear => exact bufClear s

/-- What two buffers show of it: the same next state but for `BB`, whose cells are kept in both or
written alike. -/
theorem outcomes {F : Memory → Host.Outcome State Fault Refusal} (hF : BufferBlind F)
    {m₁ m₂ : Memory} {t u : State} (ht : F m₁ = .next t) (hu : F m₂ = .next u) :
    u = { t with bb := u.bb } ∧
      ∀ q, (readCell t.bb q = readCell m₁ q ∧ readCell u.bb q = readCell m₂ q) ∨
        readCell t.bb q = readCell u.bb q := by
  obtain ⟨v, f, hf⟩ := hF
  obtain ⟨m₁', h₁, hread₁⟩ := hf m₁
  obtain ⟨m₂', h₂, hread₂⟩ := hf m₂
  obtain rfl : { v with bb := m₁' } = t := by simpa [ht] using h₁.symm
  obtain rfl : { v with bb := m₂' } = u := by simpa [hu] using h₂.symm
  refine ⟨rfl, fun q => ?_⟩
  simp only [hread₁, hread₂]
  cases f q with
  | none => exact .inl ⟨rfl, rfl⟩
  | some b => exact .inr rfl

end BufferBlind

/-- Settles O38: the sum, the read of what was written, and that every command is blind to the
buffer. -/
theorem memReadIsTheWeightedSum : Obligations.MemReadIsTheWeightedSum :=
  ⟨fun _ _ m _ hp => memRead_weightedSum hp m, fun _ _ _ _ _ h => memRead_memWrite h,
    fun i s _ _ _ ht hu => (BufferBlind.exec i s).outcomes (m₁ := s.bb) ht hu⟩

/-! ### The byte view -/

theorem byteView_of_lt {k : Nat} (hk : k < 6) (m : Memory) : byteView k m = memRead (8 * k) 8 m :=
  if_pos hk

/-- The first three bytes of the byte view of a packet, read off the rows of R42: eight preamble
ones; the other seven and the first start bit; the first payload byte. -/
theorem CarriesPacket.byteView_begins {m : Memory} {b : Byte} {d : List Byte}
    (h : CarriesPacket m (b :: d)) :
    byteView 0 m = .ok 0xFF#8 ∧ byteView 1 m = .ok 0xFE#8 ∧ byteView 2 m = .ok b := by
  simp only [byteView_of_lt (show 0 < 6 by decide), byteView_of_lt (show 1 < 6 by decide),
    byteView_of_lt (show 2 < 6 by decide)]
  refine ⟨memRead_eq (by decide) _ fun j hj => ?_, memRead_eq (by decide) _ fun j hj => ?_,
    memRead_eq (by decide) _ fun j hj => ?_⟩
  · have hones : ∀ j, j < 8 → (0xFF#8).getMsbD j = true := by decide
    rw [h.preamble _ (by omega), hones j hj]
  · have hones : ∀ j, j < 7 → (0xFE#8).getMsbD j = true := by decide
    by_cases hlast : j = 7
    · subst hlast
      exact h.startBits 0 (by simp)
    · rw [h.preamble _ (by omega), hones j (by omega)]
  · rw [BitVec.getMsbD]
    simpa [hj] using h.payload 0 j (by simp) hj

/-- The byte view's last byte is the last four cells and a low nibble of 0 (R35). -/
theorem byteView_six (m : Memory) :
    ∃ v : BitVec 4, memRead 48 4 m = .ok v ∧ byteView 6 m = .ok (v ++ 0#4) := by
  obtain ⟨v, hv, -⟩ := memRead_weightedSum (p := 48) (n := 4) (by decide) m
  exact ⟨v, hv, by simp [byteView, hv]⟩

/-- Settles O35: FRAME of at least one byte carries a packet that begins with that byte. -/
theorem byteViewOfAFramedPacket : Obligations.ByteViewOfAFramedPacket := by
  refine ⟨fun _ _ _ h => h.byteView_begins, fun n b0 b1 b2 b3 s h1 h4 => ?_, fun m => ?_⟩
  · obtain ⟨k, rfl⟩ := Nat.exists_eq_add_of_le' h1
    obtain ⟨m, hm, hcarries, -⟩ := frame_carries ([b0, b1, b2, b3].take (k + 1)) s (by simp)
    exact ⟨_, (execFrame_fits h4 b0 b1 b2 b3 s).trans hm, hcarries.byteView_begins⟩
  · obtain ⟨v, -, hv⟩ := byteView_six m
    exact ⟨_, hv, by rw [extract_append_low _ _ (by decide)]; rfl⟩

/-! ### Command lists -/

theorem run_succ {s t : State} (h : step s = .next t) (k : Nat) : run (k + 1) s = run k t := by
  simp only [run, h]

/-- A step that ends no command is not observed. -/
theorem observations_succ_idle {s t : State} (h : step s = .next t) (hip : s.inProgress = none)
    (k : Nat) : observations (k + 1) s = observations k t := by
  simp [observations, h, hip]

/-- A step that responds is observed once. -/
theorem observations_succ_response {s t : State} {w : CommandWord} (h : step s = .next t)
    (hip : s.inProgress = some w) (hrsp : t.rspValid = true) (k : Nat) :
    observations (k + 1) s = registerOutputs t :: observations k t := by
  simp [observations, h, hip, hrsp]

theorem executeWords_cons {w : CommandWord} {s t : State} (h : executeWord w s = .next t)
    (ws : List CommandWord) : executeWords (w :: ws) s = executeWords ws t := by
  simp only [executeWords, h]

/-- The two steps of a driven command on an idle block (log 1): its acceptance, then its completion,
which is the command executed with nothing else driven. -/
theorem command_two_steps {s : State} {w : CommandWord} {rest : List HostEvent}
    (hip : s.inProgress = none) (hev : s.hostEvents = .command w :: rest)
    (hrest : rest.head? ≠ some .rstInFlight) :
    ∃ t u, step s = .next t ∧ t.inProgress = some w ∧ step t = .next u ∧ u.inProgress = none ∧
      u.rspValid = true ∧ u.hostEvents = rest ∧
      executeWord w { s with hostEvents := [], rspValid := true } =
        .next { u with hostEvents := [], rspValid := true } := by
  obtain ⟨u, hu⟩ := executeWord_total w { s with hostEvents := rest, rspValid := true }
  obtain ⟨hidle, hrsp, hevents⟩ := executeWord_interface hu
  have hready : respond { s with inProgress := some w, rspValid := false, hostEvents := rest } =
      { s with hostEvents := rest, rspValid := true } := by rw [respond, ← hip]
  refine ⟨_, u, step_accept hip hev, rfl, ?_, hidle.trans hip, hrsp, hevents, ?_⟩
  · rw [step_inProgress rfl hrest, hready, hu]
  · have hrsp' : u.rspValid = true := hrsp
    exact (executeWord_hostEvents [] hu).trans (by rw [← hrsp'])

/-- Settles O15, by induction on the list: each command takes two steps and gives one response. -/
theorem commandListRunsSequentially : Obligations.CommandListRunsSequentially := by
  intro ws
  induction ws with
  | nil =>
    intro s hip hev
    have hnil : s.hostEvents = [] := hev
    exact ⟨s, rfl, by simp [runEnded, hip, hnil], rfl, by rw [executeWords, ← hnil]⟩
  | cons w ws ih =>
    intro s hip hev
    have hrest : (ws.map HostEvent.command).head? ≠ some .rstInFlight := by cases ws <;> simp
    obtain ⟨t, u, ht, htip, hu, huip, hursp, huev, hword⟩ := command_two_steps hip hev hrest
    obtain ⟨v, hrun, hended, hobs, hwords⟩ := ih u huip huev
    have hsteps : 2 * (w :: ws).length = 2 * ws.length + 1 + 1 := rfl
    refine ⟨v, ?_, hended, ?_, (executeWords_cons hword ws).trans hwords⟩
    · rw [hsteps, run_succ ht, run_succ hu, hrun]
    · rw [hsteps, observations_succ_idle ht hip, observations_succ_response hu htip hursp,
        List.length_cons, hobs, List.length_cons]

end Sys2Proof.Machine
end

section
/-! SUPPORT. Proofs of the statements about the encoding (30_encoding.md): which words are legal and
what they decode to, the opcode map, and the assembler with its pseudo-instructions. -/

namespace Sys2Proof

/-! ### Fields of a word -/

/-- Two fields side by side are known exactly when each of them is. -/
theorem field_eq_append_iff {w m n : Nat} {z : BitVec w} {x : BitVec m} {y : BitVec n} (lo : Nat) :
    z.extractLsb' lo (m + n) = x ++ y ↔ z.extractLsb' (lo + n) m = x ∧ z.extractLsb' lo n = y := by
  rw [← BitVec.extractLsb'_append_extractLsb'_eq_extractLsb' rfl]
  constructor
  · intro h
    exact ⟨by simpa [BitVec.extractLsb'_append_eq_left] using congrArg (BitVec.extractLsb' n m) h,
      by simpa [BitVec.extractLsb'_append_eq_right] using congrArg (BitVec.extractLsb' 0 n) h⟩
  · rintro ⟨rfl, rfl⟩
    rfl

/-- Every word is its own field from bit 0. -/
theorem word_eq_append_iff {m n : Nat} {z : BitVec (m + n)} {x : BitVec m} {y : BitVec n} :
    z = x ++ y ↔ z.extractLsb' n m = x ∧ z.extractLsb' 0 n = y := by
  simpa only [BitVec.extractLsb'_eq_self, Nat.zero_add] using
    field_eq_append_iff (z := z) (x := x) (y := y) 0

/-- A mask of ones above bit `n` compares the field above bit `n`. -/
theorem and_highMask_eq_iff {m n : Nat} {z : BitVec (m + n)} {x : BitVec m} :
    z &&& (BitVec.allOnes m ++ 0#n) = x ++ 0#n ↔ z.extractLsb' n m = x := by
  obtain ⟨hi, lo, rfl⟩ : ∃ (hi : BitVec m) (lo : BitVec n), z = hi ++ lo :=
    ⟨_, _, word_eq_append_iff.mpr ⟨rfl, rfl⟩⟩
  simp [BitVec.and_append, BitVec.append_left_inj, BitVec.extractLsb'_append_eq_left]

/-! The four layouts of a command word (R47). -/

theorem eq_frameWord_iff {w : CommandWord} {op n : BitVec 4} {b0 b1 b2 b3 : Byte} :
    w = op ++ n ++ b0 ++ b1 ++ b2 ++ b3 ↔
      w.extractLsb' 36 4 = op ∧ w.extractLsb' 32 4 = n ∧ w.extractLsb' 24 8 = b0 ∧
        w.extractLsb' 16 8 = b1 ∧ w.extractLsb' 8 8 = b2 ∧ w.extractLsb' 0 8 = b3 :=
  (word_eq_append_iff (m := 4 + 4 + 8 + 8 + 8) (n := 8)).trans
    (by simp only [field_eq_append_iff, and_assoc])

theorem eq_imm8Word_iff {w : CommandWord} {op : BitVec 4} {x : Byte} :
    w = op ++ 0#28 ++ x ↔
      w.extractLsb' 36 4 = op ∧ w.extractLsb' 8 28 = 0#28 ∧ w.extractLsb' 0 8 = x :=
  (word_eq_append_iff (m := 4 + 28) (n := 8)).trans
    (by rw [field_eq_append_iff, and_assoc])

theorem eq_f1Word_iff {w : CommandWord} {op : BitVec 4} {b : BitVec 1} :
    w = op ++ 0#35 ++ b ↔
      w.extractLsb' 36 4 = op ∧ w.extractLsb' 1 35 = 0#35 ∧ w.extractLsb' 0 1 = b :=
  (word_eq_append_iff (m := 4 + 35) (n := 1)).trans
    (by rw [field_eq_append_iff, and_assoc])

theorem eq_bareWord_iff {w : CommandWord} {op : BitVec 4} :
    w = op ++ 0#36 ↔ w.extractLsb' 36 4 = op ∧ w.extractLsb' 0 36 = 0#36 :=
  word_eq_append_iff (m := 4) (n := 36)

/-! ### The decoder and the encoder -/

/-- The word has the command's opcode, its operands in their fields, and 0 in every must-be-zero bit
(R47, R52). -/
def HasFields (w : CommandWord) : Instr → Prop
  | .frame n b0 b1 b2 b3 => w.extractLsb' 36 4 = 0x1#4 ∧ (w.extractLsb' 32 4).toNat = n ∧
      w.extractLsb' 24 8 = b0 ∧ w.extractLsb' 16 8 = b1 ∧ w.extractLsb' 8 8 = b2 ∧
      w.extractLsb' 0 8 = b3
  | .setAddr a => w.extractLsb' 36 4 = 0x2#4 ∧ w.extractLsb' 8 28 = 0#28 ∧ w.extractLsb' 0 8 = a
  | .setSpeed sp => w.extractLsb' 36 4 = 0x3#4 ∧ w.extractLsb' 8 28 = 0#28 ∧ w.extractLsb' 0 8 = sp
  | .setDir d => w.extractLsb' 36 4 = 0x4#4 ∧ w.extractLsb' 1 35 = 0#35 ∧ w.extractLsb' 0 1 = d.toBit
  | .setEstop e => w.extractLsb' 36 4 = 0x5#4 ∧ w.extractLsb' 1 35 = 0#35 ∧
      w.extractLsb' 0 1 = BitVec.ofBool e
  | .build => w.extractLsb' 36 4 = 0x6#4 ∧ w.extractLsb' 0 36 = 0#36
  | .serSd => w.extractLsb' 36 4 = 0x7#4 ∧ w.extractLsb' 0 36 = 0#36
  | .serReset => w.extractLsb' 36 4 = 0x8#4 ∧ w.extractLsb' 0 36 = 0#36
  | .serIdle => w.extractLsb' 36 4 = 0x9#4 ∧ w.extractLsb' 0 36 = 0#36
  | .serBstopImm => w.extractLsb' 36 4 = 0xA#4 ∧ w.extractLsb' 0 36 = 0#36
  | .serBstopFloat => w.extractLsb' 36 4 = 0xB#4 ∧ w.extractLsb' 0 36 = 0#36
  | .bufClear => w.extractLsb' 36 4 = 0xC#4 ∧ w.extractLsb' 0 36 = 0#36

theorem Direction.ofBit_eq_iff {b : BitVec 1} {d : Direction} : Direction.ofBit b = d ↔ b = d.toBit :=
  ⟨fun h => by rw [← h, Direction.toBit_ofBit], fun h => by rw [h, Direction.ofBit_toBit]⟩

theorem decide_eq_one_iff {b : BitVec 1} {e : Bool} : decide (b = 1#1) = e ↔ b = BitVec.ofBool e := by
  revert b e; decide

/-- A word decodes to a command exactly when its fields are the command's. -/
theorem decode_eq_ok_iff {w : CommandWord} {i : Instr} : decode w = .ok i ↔ HasFields w i := by
  constructor
  · intro h
    rcases opcode_values (w.extractLsb' 36 4) with ho | ho | ho | ho | ho | ho | ho | ho | ho | ho |
      ho | ho | ho
    · cases (decode_opcode_reserved ho).symm.trans h
    · cases (decode_opcode_frame ho).symm.trans h
      exact ⟨ho, rfl, rfl, rfl, rfl, rfl⟩
    · obtain ⟨hz, rfl⟩ := whenZero_eq_ok.mp ((decode_opcode_setAddr ho).symm.trans h)
      exact ⟨ho, hz, rfl⟩
    · obtain ⟨hz, rfl⟩ := whenZero_eq_ok.mp ((decode_opcode_setSpeed ho).symm.trans h)
      exact ⟨ho, hz, rfl⟩
    · obtain ⟨hz, rfl⟩ := whenZero_eq_ok.mp ((decode_opcode_setDir ho).symm.trans h)
      exact ⟨ho, hz, Direction.ofBit_eq_iff.mp rfl⟩
    · obtain ⟨hz, rfl⟩ := whenZero_eq_ok.mp ((decode_opcode_setEstop ho).symm.trans h)
      exact ⟨ho, hz, decide_eq_one_iff.mp rfl⟩
    · obtain ⟨hz, rfl⟩ := whenZero_eq_ok.mp ((decode_opcode_build ho).symm.trans h)
      exact ⟨ho, hz⟩
    · obtain ⟨hz, rfl⟩ := whenZero_eq_ok.mp ((decode_opcode_serSd ho).symm.trans h)
      exact ⟨ho, hz⟩
    · obtain ⟨hz, rfl⟩ := whenZero_eq_ok.mp ((decode_opcode_serReset ho).symm.trans h)
      exact ⟨ho, hz⟩
    · obtain ⟨hz, rfl⟩ := whenZero_eq_ok.mp ((decode_opcode_serIdle ho).symm.trans h)
      exact ⟨ho, hz⟩
    · obtain ⟨hz, rfl⟩ := whenZero_eq_ok.mp ((decode_opcode_serBstopImm ho).symm.trans h)
      exact ⟨ho, hz⟩
    · obtain ⟨hz, rfl⟩ := whenZero_eq_ok.mp ((decode_opcode_serBstopFloat ho).symm.trans h)
      exact ⟨ho, hz⟩
    · obtain ⟨hz, rfl⟩ := whenZero_eq_ok.mp ((decode_opcode_bufClear ho).symm.trans h)
      exact ⟨ho, hz⟩
  · intro h
    cases i with
    | frame =>
      obtain ⟨ho, rfl, rfl, rfl, rfl, rfl⟩ := h
      exact decode_opcode_frame ho
    | setAddr =>
      obtain ⟨ho, hz, rfl⟩ := h
      exact (decode_opcode_setAddr ho).trans (whenZero_eq_ok.mpr ⟨hz, rfl⟩)
    | setSpeed =>
      obtain ⟨ho, hz, rfl⟩ := h
      exact (decode_opcode_setSpeed ho).trans (whenZero_eq_ok.mpr ⟨hz, rfl⟩)
    | setDir =>
      obtain ⟨ho, hz, hd⟩ := h
      exact (decode_opcode_setDir ho).trans
        (whenZero_eq_ok.mpr ⟨hz, by rw [Direction.ofBit_eq_iff.mpr hd]⟩)
    | setEstop =>
      obtain ⟨ho, hz, he⟩ := h
      exact (decode_opcode_setEstop ho).trans
        (whenZero_eq_ok.mpr ⟨hz, by rw [decide_eq_one_iff.mpr he]⟩)
    | build => exact (decode_opcode_build h.1).trans (whenZero_eq_ok.mpr ⟨h.2, rfl⟩)
    | serSd => exact (decode_opcode_serSd h.1).trans (whenZero_eq_ok.mpr ⟨h.2, rfl⟩)
    | serReset => exact (decode_opcode_serReset h.1).trans (whenZero_eq_ok.mpr ⟨h.2, rfl⟩)
    | serIdle => exact (decode_opcode_serIdle h.1).trans (whenZero_eq_ok.mpr ⟨h.2, rfl⟩)
    | serBstopImm => exact (decode_opcode_serBstopImm h.1).trans (whenZero_eq_ok.mpr ⟨h.2, rfl⟩)
    | serBstopFloat => exact (decode_opcode_serBstopFloat h.1).trans (whenZero_eq_ok.mpr ⟨h.2, rfl⟩)
    | bufClear => exact (decode_opcode_bufClear h.1).trans (whenZero_eq_ok.mpr ⟨h.2, rfl⟩)

theorem count_eq_field_iff {n : Nat} {f : BitVec 4} :
    f.toNat = n ↔ n ≤ 15 ∧ f = BitVec.ofNat 4 n := by
  constructor
  · rintro rfl
    exact ⟨by omega, by simp⟩
  · rintro ⟨hn, rfl⟩
    exact Nat.mod_eq_of_lt (by omega)

/-- A word has a command's fields exactly when it is the command's word. -/
theorem hasFields_iff_eq_encode {w : CommandWord} {i : Instr} :
    HasFields w i ↔ i.wellFormed = true ∧ w = encode i := by
  cases i with
  | frame n b0 b1 b2 b3 =>
    rw [Instr.wellFormed_frame, HasFields, count_eq_field_iff, and_assoc, and_left_comm]
    exact and_congr_right' eq_frameWord_iff.symm
  | setAddr | setSpeed => exact eq_imm8Word_iff.symm.trans (and_iff_right rfl).symm
  | setDir | setEstop => exact eq_f1Word_iff.symm.trans (and_iff_right rfl).symm
  | build | serSd | serReset | serIdle | serBstopImm | serBstopFloat | bufClear =>
    exact eq_bareWord_iff.symm.trans (and_iff_right rfl).symm

/-- The legal words are the encodings of the well-formed commands. -/
theorem decode_eq_ok_iff_eq_encode {w : CommandWord} {i : Instr} :
    decode w = .ok i ↔ i.wellFormed = true ∧ w = encode i :=
  decode_eq_ok_iff.trans hasFields_iff_eq_encode

theorem decode_encode {i : Instr} (hi : i.wellFormed = true) : decode (encode i) = .ok i :=
  decode_eq_ok_iff_eq_encode.mpr ⟨hi, rfl⟩

/-- Settles O1: the encoding of a well-formed command has its fields, and decode reads them. -/
theorem decodeOfEncodeIsIdentity : Obligations.DecodeOfEncodeIsIdentity :=
  fun _ hi => decode_encode hi

/-- Settles O2: the fields of a legal word are the command's, so no bit is free. -/
theorem encodeOfDecodeIsIdentity : Obligations.EncodeOfDecodeIsIdentity := by
  intro w i h
  obtain ⟨hwf, hw⟩ := decode_eq_ok_iff_eq_encode.mp h
  exact ⟨hwf, hw.symm⟩

/-- Settles O5, word by word. -/
theorem exampleWordsDecode : Obligations.ExampleWordsDecode :=
  ⟨rfl, rfl, rfl, rfl, rfl, rfl, rfl, rfl, rfl⟩

/-! ### The opcode map -/

theorem row_mem_opcodeMap (i : Instr) : i.row ∈ opcodeMap := by
  cases i <;> simp [opcodeMap, Instr.row]

/-- Every row of the map is the row of a command. -/
theorem exists_row_of_mem_opcodeMap {r : OpcodeRow} (h : r ∈ opcodeMap) : ∃ i : Instr, i.row = r := by
  obtain ⟨i, -, hi⟩ := List.mem_map.mp h
  exact ⟨i, hi⟩

/-- The word of a command selects the command's row. -/
theorem encode_selects_row (i : Instr) : i.row.selects (encode i) = true := by
  cases i with
  | frame n b0 b1 b2 b3 => exact Laws.EncodingSelectsRow.frame n b0 b1 b2 b3
  | setAddr a => exact Laws.EncodingSelectsRow.setAddr a
  | setSpeed sp => exact Laws.EncodingSelectsRow.setSpeed sp
  | setDir d => exact Laws.EncodingSelectsRow.setDir d
  | setEstop e => exact Laws.EncodingSelectsRow.setEstop e
  | build => exact Laws.EncodingSelectsRow.build
  | serSd => exact Laws.EncodingSelectsRow.serSd
  | serReset => exact Laws.EncodingSelectsRow.serReset
  | serIdle => exact Laws.EncodingSelectsRow.serIdle
  | serBstopImm => exact Laws.EncodingSelectsRow.serBstopImm
  | serBstopFloat => exact Laws.EncodingSelectsRow.serBstopFloat
  | bufClear => exact Laws.EncodingSelectsRow.bufClear

/-- A word that selects the row of a command has the opcode and the zero bits of that row, so it has
the fields of some command of the row. -/
theorem exists_hasFields_of_selects {w : CommandWord} {j : Instr} (h : j.row.selects w = true) :
    ∃ i, HasFields w i ∧ i.row = j.row := by
  have hmask := eq_of_beq h
  cases j with
  | frame =>
    have hop := (and_highMask_eq_iff (m := 4) (n := 36) (x := 0x1#4)).mp hmask
    exact ⟨.frame _ _ _ _ _, ⟨hop, rfl, rfl, rfl, rfl, rfl⟩, rfl⟩
  | setAddr =>
    obtain ⟨hop, hz⟩ := (field_eq_append_iff (m := 4) (n := 28) 8).mp
      ((and_highMask_eq_iff (m := 32) (n := 8) (x := 0x2#4 ++ 0#28)).mp hmask)
    exact ⟨.setAddr _, ⟨hop, hz, rfl⟩, rfl⟩
  | setSpeed =>
    obtain ⟨hop, hz⟩ := (field_eq_append_iff (m := 4) (n := 28) 8).mp
      ((and_highMask_eq_iff (m := 32) (n := 8) (x := 0x3#4 ++ 0#28)).mp hmask)
    exact ⟨.setSpeed _, ⟨hop, hz, rfl⟩, rfl⟩
  | setDir =>
    obtain ⟨hop, hz⟩ := (field_eq_append_iff (m := 4) (n := 35) 1).mp
      ((and_highMask_eq_iff (m := 39) (n := 1) (x := 0x4#4 ++ 0#35)).mp hmask)
    exact ⟨.setDir (Direction.ofBit _), ⟨hop, hz, (Direction.toBit_ofBit _).symm⟩, rfl⟩
  | setEstop =>
    obtain ⟨hop, hz⟩ := (field_eq_append_iff (m := 4) (n := 35) 1).mp
      ((and_highMask_eq_iff (m := 39) (n := 1) (x := 0x5#4 ++ 0#35)).mp hmask)
    exact ⟨.setEstop (decide _), ⟨hop, hz, decide_eq_one_iff.mp rfl⟩, rfl⟩
  | build | serSd | serReset | serIdle | serBstopImm | serBstopFloat | bufClear =>
    have hw := (BitVec.and_allOnes (x := w)).symm.trans hmask
    refine ⟨_, ?_, rfl⟩
    exact hasFields_iff_eq_encode.mpr ⟨rfl, hw⟩

/-- Settles O3: a legal word is the encoding of its command, which selects the command's row; a word
that selects a row has its opcode and zero bits. -/
theorem decodeAgreesWithOpcodeMap : Obligations.DecodeAgreesWithOpcodeMap := by
  refine fun w => ⟨fun i h => ⟨row_mem_opcodeMap i, ?_⟩, fun r hr hsel => ?_⟩
  · obtain ⟨-, rfl⟩ := decode_eq_ok_iff_eq_encode.mp h
    exact encode_selects_row i
  · obtain ⟨j, rfl⟩ := exists_row_of_mem_opcodeMap hr
    obtain ⟨i, hi, hrow⟩ := exists_hasFields_of_selects hsel
    exact ⟨i, decode_eq_ok_iff.mpr hi, hrow⟩

/-! ### Illegal words -/

theorem whenZero_error {w : CommandWord} {lo n : Nat} (h : w.extractLsb' lo n ≠ 0#n) (i : Instr) :
    whenZero w lo n i = .error .nonzeroMustBeZero :=
  if_neg h

/-- Settles O4, opcode by opcode. -/
theorem illegalWordsAreRejectedByName : Obligations.IllegalWordsAreRejectedByName := by
  refine fun w => ⟨decode_opcode_reserved, fun ho => ⟨_, decode_opcode_frame ho⟩, fun ho hz => ?_,
    fun ho hz => ?_, fun ho hz => ?_⟩ <;>
    simp only [List.mem_cons, List.not_mem_nil, or_false] at ho
  · obtain ho | ho := ho
    · rw [decode_opcode_setAddr ho, whenZero_error hz]
    · rw [decode_opcode_setSpeed ho, whenZero_error hz]
  · obtain ho | ho := ho
    · rw [decode_opcode_setDir ho, whenZero_error hz]
    · rw [decode_opcode_setEstop ho, whenZero_error hz]
  · obtain ho | ho | ho | ho | ho | ho | ho := ho
    · rw [decode_opcode_build ho, whenZero_error hz]
    · rw [decode_opcode_serSd ho, whenZero_error hz]
    · rw [decode_opcode_serReset ho, whenZero_error hz]
    · rw [decode_opcode_serIdle ho, whenZero_error hz]
    · rw [decode_opcode_serBstopImm ho, whenZero_error hz]
    · rw [decode_opcode_serBstopFloat ho, whenZero_error hz]
    · rw [decode_opcode_bufClear ho, whenZero_error hz]

end Sys2Proof

namespace Sys2Proof.Machine

/-! ### Words that run -/

theorem executeWord_encode {i : Instr} (hi : i.wellFormed = true) (s : State) :
    executeWord (encode i) s = exec i s :=
  executeWord_of_decode (decode_encode hi) s

theorem executeWord_of_illegal {w : CommandWord} {e : IllegalWord} (hw : decode w = .error e)
    (s : State) : executeWord w s = .next { s with status := 4#3 } := by
  simp only [executeWord, hw]
  rfl

/-- Settles O8. -/
theorem illegalWordSetsOnlyStatus : Obligations.IllegalWordSetsOnlyStatus := by
  intro s w e hip hev hw
  rw [step_inProgress hip hev, executeWord_of_illegal hw]
  rfl

/-! ### What the assembler accepts -/

theorem asmByte_eq_some_iff {v : Nat} {b : Byte} : asmByte v = some b ↔ v = b.toNat := by
  unfold asmByte
  constructor
  · intro h
    split at h
    · cases h
      exact (Nat.mod_eq_of_lt (by omega)).symm
    · cases h
  · rintro rfl
    rw [if_pos (by omega)]
    simp

theorem asmFlag_eq_some_iff {v : Nat} {e : Bool} : asmFlag v = some e ↔ v = e.toNat := by
  unfold asmFlag
  constructor
  · intro h
    split at h
    · cases h
      assumption
    · split at h
      · cases h
        assumption
      · cases h
  · rintro rfl
    cases e <;> rfl

theorem mapM_asmByte_eq_some_iff {vs : List Nat} {bs : List Byte} :
    vs.mapM asmByte = some bs ↔ vs = bs.map BitVec.toNat := by
  induction vs generalizing bs with
  | nil => cases bs <;> simp
  | cons v vs ih =>
    cases bs <;> simp [List.mapM_cons, Option.bind_eq_some_iff, asmByte_eq_some_iff, ih]

section
variable {is : List Instr}

/-- FRAME is accepted for a count that fits its field and at most four bytes (R57). -/
theorem expand_frame_eq_some_iff {n : Nat} {vs : List Nat} :
    expand (.frame n vs) = some is ↔ n ≤ 15 ∧ ∃ bs : List Byte, bs.length ≤ 4 ∧
      vs = bs.map BitVec.toNat ∧
      is = [.frame n (bs.getD 0 0#8) (bs.getD 1 0#8) (bs.getD 2 0#8) (bs.getD 3 0#8)] := by
  constructor
  · intro h
    obtain ⟨i, hi, his⟩ := Option.bind_eq_some_iff.mp h
    unfold asmFrame at hi
    split at hi
    · next hfit =>
      obtain ⟨bs, hbs, hframe⟩ := Option.bind_eq_some_iff.mp hi
      obtain rfl := mapM_asmByte_eq_some_iff.mp hbs
      cases hframe
      exact ⟨hfit.1, bs, by simpa using hfit.2, rfl, (Option.some.inj his).symm⟩
    · cases hi
  · rintro ⟨hn, bs, hlen, rfl, rfl⟩
    have hfit : n ≤ Config.nFieldMax ∧ (bs.map BitVec.toNat).length ≤ 4 := ⟨hn, by simpa using hlen⟩
    rw [expand, asmFrame, if_pos hfit, mapM_asmByte_eq_some_iff.mpr rfl]
    rfl

theorem expand_setAddr_eq_some_iff {a : Nat} :
    expand (.setAddr a) = some is ↔ ∃ b : Byte, a = b.toNat ∧ is = [.setAddr b] := by
  simp only [expand, Option.bind_eq_bind, Option.bind_eq_some_iff, asmByte_eq_some_iff,
    Option.some.injEq, eq_comm (a := is)]

theorem expand_setSpeed_eq_some_iff {sp : Nat} :
    expand (.setSpeed sp) = some is ↔ ∃ b : Byte, sp = b.toNat ∧ is = [.setSpeed b] := by
  simp only [expand, Option.bind_eq_bind, Option.bind_eq_some_iff, asmByte_eq_some_iff,
    Option.some.injEq, eq_comm (a := is)]

theorem expand_setEstop_eq_some_iff {e : Nat} :
    expand (.setEstop e) = some is ↔ ∃ f : Bool, e = f.toNat ∧ is = [.setEstop f] := by
  simp only [expand, Option.bind_eq_bind, Option.bind_eq_some_iff, asmFlag_eq_some_iff,
    Option.some.injEq, eq_comm (a := is)]

theorem expand_sendSd_eq_some_iff {a sp e : Nat} {d : Direction} :
    expand (.sendSd a sp d e) = some is ↔ ∃ (a' sp' : Byte) (e' : Bool), a = a'.toNat ∧
      sp = sp'.toNat ∧ e = e'.toNat ∧
      is = [.setAddr a', .setSpeed sp', .setDir d, .setEstop e', .build, .serSd] := by
  simp only [expand, Option.bind_eq_bind, Option.bind_eq_some_iff, asmByte_eq_some_iff,
    asmFlag_eq_some_iff, Option.some.injEq, eq_comm (a := is), exists_and_left]

theorem expand_frame3c_eq_some_iff {x y : Nat} :
    expand (.frame3c x y) = some is ↔ ∃ x' y' : Byte, x = x'.toNat ∧ y = y'.toNat ∧
      is = [.frame 3 x' y' (checksum [x', y']) 0#8] := by
  simp only [expand, Option.bind_eq_bind, Option.bind_eq_some_iff, asmByte_eq_some_iff,
    Option.some.injEq, eq_comm (a := is), exists_and_left]

end

/-- The assembler makes well-formed commands only. -/
theorem wellFormed_of_expand {l : AsmLine} {is : List Instr} (h : expand l = some is) :
    ∀ i ∈ is, i.wellFormed = true := by
  cases l with
  | frame n vs =>
    obtain ⟨hn, bs, -, -, rfl⟩ := expand_frame_eq_some_iff.mp h
    simpa [Instr.wellFormed_frame] using hn
  | setAddr a =>
    obtain ⟨b, -, rfl⟩ := expand_setAddr_eq_some_iff.mp h
    simp [Instr.wellFormed]
  | setSpeed sp =>
    obtain ⟨b, -, rfl⟩ := expand_setSpeed_eq_some_iff.mp h
    simp [Instr.wellFormed]
  | setEstop e =>
    obtain ⟨f, -, rfl⟩ := expand_setEstop_eq_some_iff.mp h
    simp [Instr.wellFormed]
  | sendSd a sp d e =>
    obtain ⟨a', sp', e', -, -, -, rfl⟩ := expand_sendSd_eq_some_iff.mp h
    simp [Instr.wellFormed]
  | frame3c x y =>
    obtain ⟨x', y', -, -, rfl⟩ := expand_frame3c_eq_some_iff.mp h
    simp [Instr.wellFormed_frame]
  | setDir | build | serSd | serReset | serIdle | serBstopImm | serBstopFloat | bufClear =>
    cases h
    simp [Instr.wellFormed]

theorem assemble_of_expand {l : AsmLine} {is : List Instr} (h : expand l = some is) :
    assemble l = some (is.map encode) := by
  rw [assemble, h]
  rfl

theorem assemble_eq_none {l : AsmLine} (h : ∀ is, expand l ≠ some is) : assemble l = none := by
  rw [assemble, Option.eq_none_iff_forall_ne_some.mpr h]
  rfl

/-! ### One spelling for each command (R61) -/

theorem expand_disassemble {i : Instr} (hi : i.wellFormed = true) :
    expand (disassemble i) = some [i] := by
  cases i with
  | frame n b0 b1 b2 b3 =>
    exact expand_frame_eq_some_iff.mpr
      ⟨Instr.wellFormed_frame.mp hi, [b0, b1, b2, b3], Nat.le_refl 4, rfl, rfl⟩
  | setAddr a => exact expand_setAddr_eq_some_iff.mpr ⟨a, rfl, rfl⟩
  | setSpeed sp => exact expand_setSpeed_eq_some_iff.mpr ⟨sp, rfl, rfl⟩
  | setEstop e => exact expand_setEstop_eq_some_iff.mpr ⟨e, rfl, rfl⟩
  | setDir | build | serSd | serReset | serIdle | serBstopImm | serBstopFloat | bufClear => rfl

/-- A line of one command, its FRAME with all four bytes, is that command's spelling. -/
theorem eq_disassemble_of_expand {l : AsmLine} {i : Instr} (h : expand l = some [i])
    (hfull : ∀ n bs, l = .frame n bs → bs.length = 4) (hpseudo : ∀ x y, l ≠ .frame3c x y) :
    l = disassemble i := by
  cases l with
  | frame n vs =>
    obtain ⟨-, bs, -, rfl, hi⟩ := expand_frame_eq_some_iff.mp h
    obtain ⟨b0, b1, b2, b3, rfl⟩ := List.length_eq_four.mp
      (List.length_map (as := bs) BitVec.toNat ▸ hfull n _ rfl)
    cases hi
    rfl
  | setAddr a =>
    obtain ⟨b, rfl, hi⟩ := expand_setAddr_eq_some_iff.mp h
    cases hi
    rfl
  | setSpeed sp =>
    obtain ⟨b, rfl, hi⟩ := expand_setSpeed_eq_some_iff.mp h
    cases hi
    rfl
  | setEstop e =>
    obtain ⟨f, rfl, hi⟩ := expand_setEstop_eq_some_iff.mp h
    cases hi
    rfl
  | sendSd a sp d e =>
    obtain ⟨_, _, _, -, -, -, hi⟩ := expand_sendSd_eq_some_iff.mp h
    cases hi
  | frame3c x y => exact absurd rfl (hpseudo x y)
  | setDir | build | serSd | serReset | serIdle | serBstopImm | serBstopFloat | bufClear =>
    cases h
    rfl

/-- Settles O49: the line's one command is well-formed, so it is what its word decodes to. -/
theorem assemblerReproducesEveryWord : Obligations.AssemblerReproducesEveryWord := by
  refine ⟨fun i hi => assemble_of_expand (expand_disassemble hi),
    fun l w i hw hasm hfull hpseudo => ?_⟩
  obtain ⟨is, his, hwords⟩ := Option.map_eq_some_iff.mp hasm
  obtain ⟨j, rfl, rfl⟩ := List.map_eq_singleton_iff.mp hwords
  obtain rfl : i = j := by
    rw [decode_encode (wellFormed_of_expand his j (List.mem_singleton_self j))] at hw
    exact (Except.ok.inj hw).symm
  exact eq_disassemble_of_expand his hfull hpseudo

/-- Settles O50: an accepted line has operands in their fields' ranges, so its commands have words. -/
theorem assemblerEmitsLegalWordsOnly : Obligations.AssemblerEmitsLegalWordsOnly := by
  refine ⟨fun l ws hasm w hw => ?_, fun n vs hbad => assemble_eq_none fun is h => ?_,
    fun a ha => ⟨assemble_eq_none fun is h => ?_, assemble_eq_none fun is h => ?_⟩,
    fun e he => assemble_eq_none fun is h => ?_,
    fun a sp e d hbad => assemble_eq_none fun is h => ?_,
    fun x y hbad => assemble_eq_none fun is h => ?_⟩
  · obtain ⟨is, his, rfl⟩ := Option.map_eq_some_iff.mp hasm
    obtain ⟨i, hi, rfl⟩ := List.mem_map.mp hw
    exact ⟨i, decode_encode (wellFormed_of_expand his i hi)⟩
  · obtain ⟨hn, bs, hlen, rfl, -⟩ := expand_frame_eq_some_iff.mp h
    obtain hbad | hbad | ⟨v, hv, hbad⟩ := hbad
    · omega
    · rw [List.length_map] at hbad
      omega
    · obtain ⟨b, -, rfl⟩ := List.mem_map.mp hv
      omega
  · obtain ⟨b, rfl, -⟩ := expand_setAddr_eq_some_iff.mp h
    omega
  · obtain ⟨b, rfl, -⟩ := expand_setSpeed_eq_some_iff.mp h
    omega
  · obtain ⟨f, rfl, -⟩ := expand_setEstop_eq_some_iff.mp h
    have := f.toNat_le
    omega
  · obtain ⟨a', sp', f, rfl, rfl, rfl, -⟩ := expand_sendSd_eq_some_iff.mp h
    have := f.toNat_le
    omega
  · obtain ⟨x', y', rfl, rfl, -⟩ := expand_frame3c_eq_some_iff.mp h
    omega

/-! ### The pseudo-instructions (R58) -/

/-- A number that fits a byte is the number of that byte. -/
theorem eq_toNat_ofNat {v : Nat} (hv : v ≤ 255) : v = (BitVec.ofNat 8 v).toNat :=
  (Nat.mod_eq_of_lt (by omega)).symm

/-- Settles O51: the FRAME that FRAME3C stands for has the baseline payload as its three bytes. -/
theorem frame3cFramesABaselinePacket : Obligations.Frame3cFramesABaselinePacket := by
  intro x y hx hy
  refine ⟨_, assemble_of_expand
    (expand_frame3c_eq_some_iff.mpr ⟨_, _, eq_toNat_ofNat hx, eq_toNat_ofNat hy, rfl⟩), fun s => ?_⟩
  rw [executeWord_encode (Instr.wellFormed_frame.mpr (by decide)), exec, execFrame_fits (by decide)]
  rfl

/-! SEND_SD: four setters, then BUILD and SER_SD. -/

/-- A command at the head of a list of words runs first, then the other words. -/
theorem executeWords_encode_cons {i : Instr} {s t : State} (hi : i.wellFormed = true)
    (h : exec i s = .next t) (ws : List CommandWord) :
    executeWords (encode i :: ws) s = executeWords ws t :=
  executeWords_cons ((executeWord_encode hi s).trans h) ws

theorem exec_setAddr (a : Byte) (s : State) : exec (.setAddr a) s = .next { s with
    bAddr := if addrValid a then a else s.bAddr
    bAddrV := if addrValid a then true else s.bAddrV
    status := if addrValid a then 0#3 else 1#3 } := by
  rw [exec, execSetAddr]
  split <;> rfl

theorem exec_setSpeed (sp : Byte) (s : State) : exec (.setSpeed sp) s = .next { s with
    bSpeed := if speedValid sp then sp else s.bSpeed
    bSpeedV := if speedValid sp then true else s.bSpeedV
    status := if speedValid sp then 0#3 else 2#3 } := by
  rw [exec, execSetSpeed]
  split <;> rfl

/-- The state after the four setters of SEND_SD: each operand whose check passes is staged. -/
def staged (a sp : Byte) (d : Direction) (e : Bool) (s : State) : State := { s with
  bAddr := if addrValid a then a else s.bAddr
  bAddrV := if addrValid a then true else s.bAddrV
  bSpeed := if speedValid sp then sp else s.bSpeed
  bSpeedV := if speedValid sp then true else s.bSpeedV
  bDir := d
  bDirV := true
  bEstop := e
  status := 0#3 }

theorem executeWords_setters (a sp : Byte) (d : Direction) (e : Bool) (s : State)
    (ws : List CommandWord) :
    executeWords (encode (.setAddr a) :: encode (.setSpeed sp) :: encode (.setDir d) ::
      encode (.setEstop e) :: ws) s = executeWords ws (staged a sp d e s) := by
  rw [executeWords_encode_cons rfl (exec_setAddr a s),
    executeWords_encode_cons rfl (exec_setSpeed sp _),
    executeWords_encode_cons (i := .setDir d) rfl rfl,
    executeWords_encode_cons (i := .setEstop e) rfl rfl]
  rfl

theorem builderAddr_staged (a sp : Byte) (d : Direction) (e : Bool) (s : State) :
    builderAddr (staged a sp d e s) = if addrValid a then a else builderAddr s := by
  simp only [builderAddr, staged]
  split <;> rfl

theorem builderSpeed_staged (a sp : Byte) (d : Direction) (e : Bool) (s : State) :
    builderSpeed (staged a sp d e s) = if speedValid sp then sp else builderSpeed s := by
  simp only [builderSpeed, staged]
  split <;> rfl

/-- The state after BUILD (R80). -/
def built (s : State) : State := { s with
  pktAddr := builderAddr s
  pktInstr := instrByte (builderDir s) (builderSpeed s) s.bEstop
  pktValid := true
  status := 0#3 }

theorem exec_build (s : State) : exec .build s = .next (built s) := rfl

/-- SER_SD frames the packet register and leaves the cells behind it (R82). -/
theorem exec_serSd {s : State} (hs : s.pktValid = true) :
    ∃ m, exec .serSd s = .next { s with bb := m, len := 43#6, status := 0#3 } ∧
      CarriesPacket m [s.pktAddr, s.pktInstr, s.pktAddr ^^^ s.pktInstr] ∧
      ∀ q, 43 ≤ q → readCell m q = readCell s.bb q := by
  obtain ⟨m, hm, hcarries, hread⟩ := frame_baseline s.pktAddr s.pktInstr s
  exact ⟨m, (if_pos hs).trans hm, hcarries, fun q hq => by rw [hread, if_neg (by omega)]⟩

/-- BUILD then SER_SD frames the packet just built. -/
theorem executeWords_build_serSd (s : State) :
    ∃ m, executeWords [encode .build, encode .serSd] s =
        .next { built s with bb := m, len := 43#6, status := 0#3 } ∧
      CarriesPacket m [(built s).pktAddr, (built s).pktInstr, (built s).pktAddr ^^^ (built s).pktInstr] ∧
      ∀ q, 43 ≤ q → readCell m q = readCell s.bb q := by
  obtain ⟨m, hm, hcarries, htail⟩ := exec_serSd (s := built s) rfl
  refine ⟨m, ?_, hcarries, htail⟩
  rw [executeWords_encode_cons rfl (exec_build s), executeWords_encode_cons rfl hm, executeWords]

theorem addrValid_ofNat {a : Nat} (ha : a ≤ 255) :
    addrValid (BitVec.ofNat 8 a) = true ↔ 1 ≤ a ∧ a ≤ 127 := by
  rw [addrValid_iff, ← eq_toNat_ofNat ha]

theorem speedValid_ofNat {sp : Nat} (hsp : sp ≤ 255) :
    speedValid (BitVec.ofNat 8 sp) = true ↔ sp ≤ 28 := by
  rw [speedValid_iff, ← eq_toNat_ofNat hsp]

/-- A number that fits one bit is the number of its flag. -/
theorem eq_toNat_decide {e : Nat} (he : e ≤ 1) : e = (decide (e = 1)).toNat := by
  obtain rfl | rfl : e = 0 ∨ e = 1 := by omega
  · rfl
  · rfl

/-- Settles O52: the setters stage what their checks accept, then BUILD and SER_SD send it. -/
theorem sendSdSendsTheStagedPacket : Obligations.SendSdSendsTheStagedPacket := by
  intro a sp e d ha hsp he
  refine ⟨_, assemble_of_expand (expand_sendSd_eq_some_iff.mpr
    ⟨_, _, _, eq_toNat_ofNat ha, eq_toNat_ofNat hsp, eq_toNat_decide he, rfl⟩), fun s => ?_⟩
  obtain ⟨m, hm, hcarries, htail⟩ := executeWords_build_serSd
    (staged (BitVec.ofNat 8 a) (BitVec.ofNat 8 sp) d (decide (e = 1)) s)
  simp only [← addrValid_ofNat ha, ← speedValid_ofNat hsp]
  exact ⟨_, (executeWords_setters _ _ d _ s _).trans hm, rfl, rfl, rfl, rfl, rfl, rfl, rfl, rfl, rfl,
    rfl, builderAddr_staged .., congrArg (instrByte d · _) (builderSpeed_staged ..), hcarries, htail⟩

end Sys2Proof.Machine
end

section
/-! SUPPORT. Proofs of the statements about framing (40_framing.md): the framing procedure, FRAME,
reading a framed packet back, BUF_CLEAR and the checksum. -/

namespace Sys2Proof.Machine

/-! ### The framing procedure and FRAME (R62–R65) -/

/-- Settles O28: a payload fits exactly when it has at most 4 bytes, and each side has its answer. -/
theorem framingProcedure : Obligations.FramingProcedure := by
  intro d s
  have hfits : 15 + 9 * d.length + 1 ≤ 52 ↔ d.length ≤ 4 := by omega
  have hbits : 15 + 9 * d.length + 1 = 16 + 9 * d.length := by omega
  refine ⟨hfits, fun hlong => ?_, fun hshort => ?_⟩
  · exact (frame_tooLong d s (by omega)).trans (raise_eq .tooLong s)
  · rw [hbits]
    exact frame_carries d s (hfits.mp hshort)

theorem length_take_bytes {n : Nat} (hn : n ≤ 4) (b0 b1 b2 b3 : Byte) :
    ([b0, b1, b2, b3].take n).length = n :=
  List.length_take_of_le hn

/-- What FRAME answers for a count that fits, in the rows of R42. -/
theorem exec_frame_carries {n : Nat} (hn : n ≤ 4) (b0 b1 b2 b3 : Byte) (s : State) :
    ∃ m, exec (.frame n b0 b1 b2 b3) s =
        .next { s with bb := m, len := BitVec.ofNat 6 (16 + 9 * n), status := 0#3 } ∧
      CarriesPacket m ([b0, b1, b2, b3].take n) ∧
      ∀ q, 16 + 9 * n ≤ q → readCell m q = readCell s.bb q := by
  have hlen := length_take_bytes hn b0 b1 b2 b3
  have h := frame_carries ([b0, b1, b2, b3].take n) s (by omega)
  rwa [hlen, ← execFrame_fits hn] at h

/-- Settles O29: the fields of a FRAME word, then the two ranges of its count. -/
theorem frameFramesTheFirstNBytes : Obligations.FrameFramesTheFirstNBytes :=
  ⟨fun _ _ _ _ _ _ => decode_eq_ok_iff,
    fun _ b0 b1 b2 b3 s hn => exec_frame_carries hn b0 b1 b2 b3 s,
    fun _ b0 b1 b2 b3 s hn => execFrame_tooLong hn b0 b1 b2 b3 s⟩

/-- A packet of no bytes is the 15 preamble ones and the stop bit right after them (R65). -/
theorem CarriesPacket.readCell_of_nil {m : Memory} (h : CarriesPacket m []) {q : Nat} (hq : q < 16) :
    readCell m q = true := by
  by_cases hpre : q < 15
  · exact h.preamble q hpre
  · obtain rfl : q = 15 := by omega
    exact h.stopBit

/-- Settles O30: FRAME with a count of 0 frames the empty payload. -/
theorem frameOfNoBytesIsSixteenOnes : Obligations.FrameOfNoBytesIsSixteenOnes := by
  intro b0 b1 b2 b3 s
  obtain ⟨m, hm, hcarries, htail⟩ := exec_frame_carries (Nat.zero_le 4) b0 b1 b2 b3 s
  refine ⟨m, hm, fun q => ?_⟩
  split
  · exact hcarries.readCell_of_nil ‹_›
  · exact htail q (by omega)

/-! ### Reading a framed packet back (R68, R69) -/

theorem CarriesPacket.memRead_preamble {m : Memory} {d : List Byte} (h : CarriesPacket m d) :
    memRead 0 15 m = .ok 0x7FFF#15 := by
  have hones : ∀ j, j < 15 → (0x7FFF#15).getMsbD j = true := by decide
  refine memRead_eq (by decide) _ fun j hj => ?_
  rw [h.preamble _ (by omega), hones j hj]

theorem CarriesPacket.memRead_payload {m : Memory} {d : List Byte} (h : CarriesPacket m d)
    (hd : d.length ≤ 4) {k : Nat} (hk : k < d.length) :
    memRead (16 + 9 * k) 8 m = .ok (d.getD k 0#8) := by
  have hcap : Config.capacity = 52 := rfl
  refine memRead_eq (by omega) _ fun j hj => ?_
  rw [h.payload k j hk hj, BitVec.getMsbD]
  simp [hj]

/-- Settles O34: the rows of the packet that FRAME leaves, read as numbers. -/
theorem framedBytesReadBack : Obligations.FramedBytesReadBack := by
  intro n b0 b1 b2 b3 s h1 h4
  obtain ⟨m, hm, hcarries, -⟩ := exec_frame_carries h4 b0 b1 b2 b3 s
  have hn := length_take_bytes h4 b0 b1 b2 b3
  have hlen : (BitVec.ofNat 6 (16 + 9 * n)).toNat = 16 + 9 * n := Nat.mod_eq_of_lt (by omega)
  have hstop : 16 + 9 * n - 1 = 15 + 9 * ([b0, b1, b2, b3].take n).length := by omega
  refine ⟨_, hm, hlen, hcarries.memRead_preamble, hcarries.startBits 0 (by omega), ?_, fun k hk => ?_⟩
  · rw [hlen, hstop]
    exact hcarries.stopBit
  · rw [hcarries.memRead_payload (by omega) (by omega), List.getD_eq_getElem?_getD,
      List.getElem?_take_of_lt hk, ← List.getD_eq_getElem?_getD]

/-! ### BUF_CLEAR (R67) -/

/-- A buffer in canonical form whose cells are all 0 is the buffer after reset. -/
theorem Memory.eq_reset_of_wf {m : Memory} (hm : Memory.wf m = true)
    (h : ∀ q, q < Config.capacity → readCell m q = false) : m = State.reset.bb := by
  refine Memory.ext_of_wf hm State.reset_bb_wf fun q => ?_
  by_cases hq : q < Config.capacity
  · exact h q hq
  · exact readCell_eq_false_of_capacity_le (by omega) hm

/-- Settles O33: BUF_CLEAR's own law, and canonical form, which the zeros of all 52 cells decide. -/
theorem bufClearClearsTheBuffer : Obligations.BufClearClearsTheBuffer := by
  refine ⟨fun _ => decode_eq_ok_iff, fun s => ?_⟩
  obtain ⟨m, hm, hread, hwf⟩ := execBufClear_spec s
  refine ⟨m, hm, hread, fun hs => Memory.eq_reset_of_wf (hwf hs) fun q hq => ?_⟩
  rw [hread, if_pos hq]

/-! ### The checksum (R66) -/

theorem checksum_append_singleton (d : List Byte) (b : Byte) :
    checksum (d ++ [b]) = checksum d ^^^ b :=
  List.foldl_append

theorem checksum_pair (a i : Byte) : checksum [a, i] = a ^^^ i := by
  rw [checksum, List.foldl_cons, BitVec.zero_xor]
  rfl

theorem checksum_baselinePayload (a i : Byte) : checksum (baselinePayload a i) = 0#8 :=
  calc checksum ([a, i] ++ [checksum [a, i]])
    _ = checksum [a, i] ^^^ checksum [a, i] := checksum_append_singleton ..
    _ = 0#8 := BitVec.xor_self

theorem checksum_perm {d d' : List Byte} (h : d.Perm d') : checksum d = checksum d' :=
  h.foldl_eq 0x00#8

/-- Settles O36: the exclusive-or of a list, of two bytes and of a baseline payload, in any order. -/
theorem checksumIsTheExclusiveOr : Obligations.ChecksumIsTheExclusiveOr := by
  refine ⟨rfl, checksum_append_singleton, fun a i => ⟨checksum_pair a i, ?_,
    checksum_baselinePayload a i⟩, fun _ _ => checksum_perm⟩
  rw [checksum_pair, BitVec.xor_eq_zero_iff]

end Sys2Proof.Machine
end

section
/-! SUPPORT. Proofs of the statements about the Speed-and-Direction commands (41_speed_direction.md):
the instruction byte, the setters, BUILD and SER_SD. -/

namespace Sys2Proof.Machine

/-! ### The speed field and the instruction byte (R72–R75) -/

/-- Settles O48, direction by direction. -/
theorem oppositeInvertsTheDirectionBit : Obligations.OppositeInvertsTheDirectionBit := by
  intro d
  cases d with
  | forward => exact ⟨rfl, rfl⟩
  | backward => exact ⟨rfl, rfl⟩

theorem speedField_zero : speedField 0#8 = 0#5 := if_pos rfl

/-- The speed field as a number, for every speed R72 speaks of. -/
theorem toNat_speedField {sp : Byte} (hsp : sp.toNat ≤ 28) :
    (speedField sp).toNat = if sp.toNat = 0 then 0 else sp.toNat + 3 := by
  by_cases h0 : sp = 0#8
  · rw [h0, speedField_zero]
    rfl
  · have hne : sp.toNat ≠ 0 := fun h => h0 (BitVec.eq_of_toNat_eq h)
    rw [speedField, if_neg h0, if_pos hsp, if_neg hne, BitVec.toNat_setWidth, BitVec.toNat_add,
      BitVec.toNat_ofNat]
    omega

theorem toNat_speedField_notMem {sp : Byte} (hsp : sp.toNat ≤ 28) :
    (speedField sp).toNat ∉ [1, 2, 3] := by
  rw [toNat_speedField hsp]
  split
  · decide
  · simp only [List.mem_cons, List.not_mem_nil, or_false]
    omega

/-- Bits 4..0 of the instruction byte: the e-stop pattern, or the speed field's LSB and its bits 4..1
(R73). -/
def instrLow (sp : Byte) (e : Bool) : BitVec 5 :=
  if e then 0#1 ++ 0b0001#4
  else (speedField sp).extractLsb' 0 1 ++ (speedField sp).extractLsb' 1 4

theorem instrByte_eq_append (d : Direction) (sp : Byte) (e : Bool) :
    instrByte d sp e = 0b01#2 ++ d.toBit ++ instrLow sp e := rfl

theorem instrByte_marker (d : Direction) (sp : Byte) (e : Bool) :
    (instrByte d sp e).extractLsb' 6 2 = 0b01#2 := by
  rw [instrByte_eq_append, extract_append_high _ _ (by decide)]
  exact BitVec.extractLsb'_append_eq_left

theorem instrByte_directionBit (d : Direction) (sp : Byte) (e : Bool) :
    (instrByte d sp e).getLsbD 5 = decide (d = .forward) := by
  rw [instrByte_eq_append, BitVec.getLsbD_append, if_neg (by decide)]
  cases d with
  | forward => rfl
  | backward => rfl

theorem instrByte_low (d : Direction) (sp : Byte) (e : Bool) :
    (instrByte d sp e).extractLsb' 0 5 = instrLow sp e :=
  BitVec.extractLsb'_append_eq_right

theorem instrByte_bit4 (d : Direction) (sp : Byte) (e : Bool) :
    (instrByte d sp e).getLsbD 4 = (instrLow sp e).getLsbD 4 := by
  rw [instrByte_eq_append, BitVec.getLsbD_append, if_pos (by decide)]

theorem instrByte_nibble (d : Direction) (sp : Byte) (e : Bool) :
    (instrByte d sp e).extractLsb' 0 4 = (instrLow sp e).extractLsb' 0 4 :=
  extract_append_low _ _ (by decide)

/-- A byte laid out as marker, direction bit and low bits is the `or` of its parts in place. -/
theorem markedByte_eq_or (d : Direction) (low : BitVec 5) :
    0b01#2 ++ d.toBit ++ low =
      0x40#8 ||| ((if d = .forward then 1#8 else 0#8) <<< 5) ||| low.setWidth 8 := by
  cases d with
  | forward => revert low; decide
  | backward => revert low; decide

/-- The low bits of a speed as R73's closed form moves them. -/
theorem setWidth_rotatedField (f : BitVec 5) :
    (f.extractLsb' 0 1 ++ f.extractLsb' 1 4).setWidth 8 =
      ((f.setWidth 8 &&& 1#8) <<< 4) ||| ((f.setWidth 8 >>> 1) &&& 0x0F#8) := by
  revert f; decide

theorem setWidth_instrLow (sp : Byte) (e : Bool) :
    (instrLow sp e).setWidth 8 = if e = true then 0x01#8
      else (((speedField sp).setWidth 8 &&& 1#8) <<< 4) |||
        (((speedField sp).setWidth 8 >>> 1) &&& 0x0F#8) := by
  cases e with
  | true => rfl
  | false => exact setWidth_rotatedField (speedField sp)

theorem instrLow_estop (sp : Byte) : instrLow sp true = 0b00001#5 := rfl

theorem instrLow_speed (sp : Byte) :
    instrLow sp false = (speedField sp).extractLsb' 0 1 ++ (speedField sp).extractLsb' 1 4 := rfl

theorem instrLow_speed_bit4 (sp : Byte) :
    (instrLow sp false).getLsbD 4 = (speedField sp).getLsbD 0 := by
  rw [instrLow_speed, BitVec.getLsbD_append, if_neg (by decide), BitVec.getLsbD_extractLsb']
  rfl

theorem instrLow_speed_nibble (sp : Byte) :
    (instrLow sp false).extractLsb' 0 4 = (speedField sp).extractLsb' 1 4 :=
  BitVec.extractLsb'_append_eq_right

/-- Settles O21, field by field of the byte. -/
theorem instructionByteLayout : Obligations.InstructionByteLayout := by
  intro d sp e hsp
  refine ⟨toNat_speedField hsp, toNat_speedField_notMem hsp, instrByte_marker d sp e,
    instrByte_directionBit d sp e, ?_, ?_, ?_⟩
  · rintro rfl
    rw [instrByte_bit4, instrByte_nibble, instrLow_estop]
    exact ⟨rfl, rfl⟩
  · rintro rfl
    rw [instrByte_bit4, instrByte_nibble]
    exact ⟨instrLow_speed_bit4 sp, instrLow_speed_nibble sp⟩
  · rw [instrByte_eq_append, markedByte_eq_or, setWidth_instrLow]

/-- Under e-stop the speed is not looked at (R74). -/
theorem instrByte_estop (d : Direction) (sp sp' : Byte) : instrByte d sp true = instrByte d sp' true :=
  rfl

/-- Only the field 2, which no speed has, would give the low bits of the e-stop pattern. -/
theorem instrLow_ne_estop {sp : Byte} (hsp : sp.toNat ≤ 28) : instrLow sp false ≠ 0b00001#5 := by
  have htwo : ∀ f : BitVec 5, f.extractLsb' 0 1 ++ f.extractLsb' 1 4 = 0b00001#5 → f = 2#5 := by decide
  intro h
  have hfield : speedField sp = 2#5 := htwo _ h
  exact toNat_speedField_notMem hsp (by simp [hfield])

/-- Settles O22: the two e-stop bytes, and the low bits of a speed. -/
theorem estopByteIgnoresTheSpeed : Obligations.EstopByteIgnoresTheSpeed := by
  refine ⟨fun sp => ?_, fun d sp hsp => ?_⟩
  · rw [instrByte_eq_append, instrByte_eq_append, instrLow_estop]
    exact ⟨rfl, rfl⟩
  · rw [instrByte_low]
    exact instrLow_ne_estop hsp

/-! ### BUILD (R80, R81) -/

/-- Everything BUILD can do. -/
theorem exec_build_cases {s t : State} (h : exec .build s = .next t) : t = built s := by
  cases h; rfl

/-- BUILD makes one packet of two builders that give it one address and one instruction byte. -/
theorem exec_build_same_packet {s t u v : State} (hu : exec .build s = .next u)
    (hv : exec .build t = .next v) (haddr : builderAddr t = builderAddr s)
    (hinstr : instrByte (builderDir t) (builderSpeed t) t.bEstop =
      instrByte (builderDir s) (builderSpeed s) s.bEstop) :
    v.pktAddr = u.pktAddr ∧ v.pktInstr = u.pktInstr := by
  rw [exec_build_cases hu, exec_build_cases hv]
  exact ⟨haddr, hinstr⟩

theorem builderAddr_default {s : State} (h : s.bAddrV = false) : builderAddr s = 3#8 := by
  simp [builderAddr, h]

theorem builderSpeed_default {s : State} (h : s.bSpeedV = false) : builderSpeed s = 0#8 := by
  simp [builderSpeed, h]

theorem builderDir_default {s : State} (h : s.bDirV = false) : builderDir s = .forward := by
  simp [builderDir, h]

/-- Settles O20: BUILD's whole next state, its defaults, and that it writes no field it reads. -/
theorem buildWritesThePacketRegister : Obligations.BuildWritesThePacketRegister := by
  refine ⟨fun _ => decode_eq_ok_iff, exec_build, fun s t ha hsp hd he h => ?_, rfl, fun s t h => ?_⟩
  · rw [exec_build_cases h, built, builderAddr_default ha, builderSpeed_default hsp,
      builderDir_default hd, he]
    exact ⟨rfl, rfl⟩
  · rw [exec_build_cases h]
    exact exec_build (built s)

/-! ### The setters (R76–R79) -/

/-- SET_ADDR's two outcomes by R70's inequalities. -/
theorem exec_setAddr_eq_ite (a : Byte) (s : State) : exec (.setAddr a) s = .next
    (if 1 ≤ a.toNat ∧ a.toNat ≤ 127 then { s with bAddr := a, bAddrV := true, status := 0#3 }
      else { s with status := 1#3 }) := by
  simp only [exec, execSetAddr, addrValid_iff]
  split
  · rfl
  · rfl

/-- SET_SPEED's two outcomes by R71's inequality. -/
theorem exec_setSpeed_eq_ite (sp : Byte) (s : State) : exec (.setSpeed sp) s = .next
    (if sp.toNat ≤ 28 then { s with bSpeed := sp, bSpeedV := true, status := 0#3 }
      else { s with status := 2#3 }) := by
  simp only [exec, execSetSpeed, speedValid_iff]
  split
  · rfl
  · rfl

/-- Settles O16; address 3 is what BUILD takes for an unset address. -/
theorem setAddrStagesAValidAddress : Obligations.SetAddrStagesAValidAddress := by
  refine ⟨fun _ => addrValid_iff, fun _ _ => decode_eq_ok_iff, exec_setAddr_eq_ite,
    fun s t u v hunset hset hu hv => exec_build_same_packet hu hv ?_ ?_⟩
  · rw [complete_cases hset, builderAddr_default hunset]
    rfl
  · rw [complete_cases hset]
    rfl

/-- Settles O17; under e-stop BUILD does not look at the speed, whether SET_SPEED staged it or not. -/
theorem setSpeedStagesAValidSpeed : Obligations.SetSpeedStagesAValidSpeed := by
  refine ⟨fun _ => speedValid_iff, fun _ _ => decode_eq_ok_iff, exec_setSpeed_eq_ite,
    speedField_zero, fun sp s t u v hestop hset hu hv => ?_⟩
  cases (exec_setSpeed sp s).symm.trans hset
  refine exec_build_same_packet hu hv rfl ?_
  rw [hestop]
  exact instrByte_estop ..

theorem Direction.toBit_eq_ite (d : Direction) : d.toBit = if d = .forward then 1#1 else 0#1 := by
  cases d with
  | forward => rfl
  | backward => rfl

/-- Settles O18; Forward is what BUILD takes for an unset direction. -/
theorem setDirStoresTheDirection : Obligations.SetDirStoresTheDirection := by
  refine ⟨fun w d => ?_, fun _ _ => rfl,
    fun s t u v hunset hset hu hv => exec_build_same_packet hu hv ?_ ?_⟩
  · rw [← Direction.toBit_eq_ite]
    exact decode_eq_ok_iff
  · rw [complete_cases hset]
    rfl
  · rw [complete_cases hset, builderDir_default hunset]
    rfl

theorem ofBool_eq_ite (e : Bool) : BitVec.ofBool e = if e = true then 1#1 else 0#1 := by
  cases e with
  | true => rfl
  | false => rfl

/-- Settles O19; SET_ESTOP writes no other field of the builder, so BUILD finds the stored speed. -/
theorem setEstopStoresTheFlag : Obligations.SetEstopStoresTheFlag := by
  refine ⟨fun w e => ?_, fun _ _ => rfl, fun s t u v ht hu hv => ?_⟩
  · rw [← ofBool_eq_ite]
    exact decode_eq_ok_iff
  · rw [exec_build_cases hv, complete_cases hu, complete_cases ht]
    rfl

/-! ### The order of setters (R84) -/

/-- The state after a setter but for STATUS: its own field, where its check passes. Any other command
stages nothing. -/
def stagedBy (i : Instr) (s : State) : State :=
  match i with
  | .setAddr a => { s with
      bAddr := if addrValid a then a else s.bAddr
      bAddrV := if addrValid a then true else s.bAddrV }
  | .setSpeed sp => { s with
      bSpeed := if speedValid sp then sp else s.bSpeed
      bSpeedV := if speedValid sp then true else s.bSpeedV }
  | .setDir d => { s with bDir := d, bDirV := true }
  | .setEstop e => { s with bEstop := e }
  | _ => s

/-- The STATUS a setter ends with. -/
def setterStatus : Instr → BitVec 3
  | .setAddr a => if addrValid a then 0#3 else 1#3
  | .setSpeed sp => if speedValid sp then 0#3 else 2#3
  | _ => 0#3

/-- What a setter answers. -/
theorem exec_setter {i : Instr} (hi : setterField i ≠ none) (s : State) :
    exec i s = .next { stagedBy i s with status := setterStatus i } := by
  cases i with
  | setAddr a => exact exec_setAddr a s
  | setSpeed sp => exact exec_setSpeed sp s
  | setDir | setEstop => rfl
  | frame | build | serSd | serReset | serIdle | serBstopImm | serBstopFloat | bufClear =>
    exact absurd rfl hi

/-- Everything a setter can do. -/
theorem exec_setter_cases {i : Instr} {s t : State} (hi : setterField i ≠ none)
    (h : exec i s = .next t) : t = { stagedBy i s with status := setterStatus i } := by
  cases (exec_setter hi s).symm.trans h
  rfl

theorem stagedBy_setStatus (i : Instr) (s : State) (c : BitVec 3) :
    stagedBy i { s with status := c } = { stagedBy i s with status := c } := by
  cases i <;> rfl

/-- Stagings of different fields commute. -/
theorem stagedBy_comm {i j : Instr} (hij : setterField i ≠ setterField j) (s : State) :
    stagedBy i (stagedBy j s) = stagedBy j (stagedBy i s) := by
  cases i with
  | setAddr a =>
    cases j with
    | setAddr => exact absurd rfl hij
    | _ => rfl
  | setSpeed sp =>
    cases j with
    | setSpeed => exact absurd rfl hij
    | _ => rfl
  | setDir d =>
    cases j with
    | setDir => exact absurd rfl hij
    | _ => rfl
  | setEstop e =>
    cases j with
    | setEstop => exact absurd rfl hij
    | _ => rfl
  | _ => rfl

/-- A setter that succeeds leaves nothing of what another staged in its field. -/
theorem stagedBy_overwrites {i j : Instr} (hj : setterField j ≠ none)
    (hij : setterField i = setterField j) (hok : setterStatus j = 0#3) (s : State) :
    stagedBy j (stagedBy i s) = stagedBy j s := by
  cases j with
  | setAddr a =>
    have ha : addrValid a = true := by
      by_contra ha
      simp [setterStatus, ha] at hok
    cases i with
    | setAddr => simp [stagedBy, ha]
    | _ => cases hij
  | setSpeed sp =>
    have hsp : speedValid sp = true := by
      by_contra hsp
      simp [setterStatus, hsp] at hok
    cases i with
    | setSpeed => simp [stagedBy, hsp]
    | _ => cases hij
  | setDir d =>
    cases i with
    | setDir => rfl
    | _ => cases hij
  | setEstop e =>
    cases i with
    | setEstop => rfl
    | _ => cases hij
  | _ => exact absurd rfl hj

/-- Everything two setters in a row can do. -/
theorem exec_two_setters_cases {i j : Instr} {s t u : State} (hi : setterField i ≠ none)
    (hj : setterField j ≠ none) (h : exec i s = .next t) (hu : exec j t = .next u) :
    u = { stagedBy j (stagedBy i s) with status := setterStatus j } := by
  rw [exec_setter_cases hj hu, exec_setter_cases hi h, stagedBy_setStatus]

/-- Settles O26: stagings commute, and a successful one overwrites. -/
theorem setterOrderDoesNotMatter : Obligations.SetterOrderDoesNotMatter := by
  constructor
  · intro i j s t₁ u₁ t₂ u₂ hi hj hij h₁ hu₁ h₂ hu₂
    obtain rfl := exec_two_setters_cases hi hj h₁ hu₁
    obtain rfl := exec_two_setters_cases hj hi h₂ hu₂
    rw [stagedBy_comm hij]
  · intro i j s t u hi hij h hu hok
    have hj : setterField j ≠ none := hij ▸ hi
    obtain rfl := exec_two_setters_cases hi hj h hu
    rw [stagedBy_overwrites hj hij hok]
    exact exec_setter hj s

/-! ### SER_SD (R82, R83) -/

/-- Settles O24. -/
theorem serSdWithoutPacketRaises : Obligations.SerSdWithoutPacketRaises := by
  intro s hs
  rw [exec, execSerSd, if_neg (by simp [hs])]
  rfl

/-- Settles O23; a framing writes the buffer, LEN and STATUS alone. -/
theorem serSdFramesThePacketRegister : Obligations.SerSdFramesThePacketRegister :=
  ⟨fun _ => decode_eq_ok_iff, fun _ hs => exec_serSd hs⟩

/-- Settles O25: the packet register just built is the payload that SER_SD frames. -/
theorem buildThenSerSdSendsThePacket : Obligations.BuildThenSerSdSendsThePacket := by
  intro s
  obtain ⟨m, hm, hcarries, -⟩ := exec_serSd (s := built s) rfl
  exact ⟨built s, _, exec_build s, hm, rfl, hcarries.memRead_payload (k := 0) (by simp) (by simp),
    hcarries.memRead_payload (k := 1) (by simp) (by simp),
    hcarries.memRead_payload (k := 2) (by simp) (by simp)⟩

end Sys2Proof.Machine
end

section
/-! SUPPORT. Proofs of the statements about the fixed packets (42_fixed_packets.md): what the four
commands frame, and where the two Broadcast-Stop packets differ. -/

namespace Sys2Proof.Machine

/-- A command that only frames a baseline packet sends its two bytes and their exclusive-or, and ends
with OK from every state (R85, R91). -/
theorem exec_carries_baseline {i : Instr} {a b c : Byte} {s : State}
    (hi : exec i s = frame (baselinePayload a b) s) (hc : c = a ^^^ b) :
    c = a ^^^ b ∧
    ∃ m, exec i s = .next { s with bb := m, len := 43#6, status := 0#3 } ∧
      CarriesPacket m [a, b, c] ∧ ∀ q, 43 ≤ q → readCell m q = readCell s.bb q := by
  subst hc
  obtain ⟨m, hm, hcarries, hread⟩ := frame_baseline a b s
  exact ⟨rfl, m, hi.trans hm, hcarries, fun q hq => by rw [hread, if_neg (by omega)]⟩

/-- Settles O31, command by command of the table of R86. -/
theorem fixedPacketsFrameTheirConstants : Obligations.FixedPacketsFrameTheirConstants := by
  intro s x hx
  simp only [List.mem_cons, List.not_mem_nil, or_false] at hx
  obtain rfl | rfl | rfl | rfl := hx
  · exact exec_carries_baseline (i := .serReset) rfl (by decide)
  · exact exec_carries_baseline (i := .serIdle) rfl (by decide)
  · exact exec_carries_baseline (i := .serBstopImm) rfl (by decide)
  · exact exec_carries_baseline (i := .serBstopFloat) rfl (by decide)

/-- The cells after the framing of a baseline packet. -/
theorem readCell_frame_baseline {a i : Byte} {s t : State}
    (h : frame (baselinePayload a i) s = .next t) (q : Nat) :
    readCell t.bb q = if q < 43 then packetBit [a, i, a ^^^ i] q else readCell s.bb q := by
  obtain ⟨m, hm, -, hread⟩ := frame_baseline a i s
  cases hm.symm.trans h
  exact hread q

/-- The instruction bytes 0x40 and 0x50, and so the checksums, differ in bit 4 alone: the fourth cell
of the second and of the third byte (R90). -/
theorem packetBit_broadcastStop_ne_iff : ∀ q, q < 43 →
    (packetBit [0x00#8, 0x40#8, 0x00#8 ^^^ 0x40#8] q ≠
      packetBit [0x00#8, 0x50#8, 0x00#8 ^^^ 0x50#8] q ↔ q = 28 ∨ q = 37) := by
  decide

/-- Settles O32: inside the packet its bits decide, and behind it both commands keep the cell. -/
theorem broadcastStopKindsDifferInTwoCells : Obligations.BroadcastStopKindsDifferInTwoCells := by
  intro s t u ht hu q
  rw [readCell_frame_baseline ht, readCell_frame_baseline hu]
  by_cases hq : q < 43
  · rw [if_pos hq, if_pos hq]
    exact packetBit_broadcastStop_ne_iff q hq
  · rw [if_neg hq, if_neg hq]
    exact ⟨fun h => absurd rfl h, by omega⟩

end Sys2Proof.Machine
end

section
/-! SUPPORT. Proofs of the statements about errors (60_exceptions.md): that the block never stops, what
a failing command writes, which status code each command ends with, and platforms of several instances
(R104). -/

namespace Sys2Proof.Machine

/-! ### No stops, and what an error writes (R92, R97) -/

/-- Settles O13. -/
theorem blockNeverStops : Obligations.BlockNeverStops :=
  ⟨exec_total, step_total⟩

/-- Settles O42; a word fails as the command it decodes to, or by being illegal. -/
theorem errorsWriteOnlyStatus : Obligations.ErrorsWriteOnlyStatus := by
  refine ⟨raise_eq, fun i s t h hst => exec_failed h hst, fun w s t h hst => ?_⟩
  obtain ⟨i, -, hi⟩ | ⟨-, rfl⟩ := executeWord_cases h
  · exact exec_failed hi hst
  · rfl

/-! ### The status code of a command (R94, R98) -/

/-- The status code a command ends with, by the check it makes; most commands make none. -/
def outcome (i : Instr) (s : State) : StatusCode :=
  match i with
  | .setAddr a => if addrValid a then .ok else .invalidAddress
  | .setSpeed sp => if speedValid sp then .ok else .invalidSpeed
  | .frame n _ _ _ _ => if countTooLong n then .tooLong else .ok
  | .serSd => if s.pktValid then .ok else .noPacket
  | .setDir _ | .setEstop _ | .build | .serReset | .serIdle | .serBstopImm | .serBstopFloat
  | .bufClear => .ok

theorem frame_status_of_fits {d : List Byte} {s t : State} (hd : d.length ≤ 4)
    (h : frame d s = .next t) : t.status = StatusCode.ok.number := by
  obtain ⟨m, hm, -⟩ := frame_spec d s hd
  cases hm.symm.trans h
  rfl

/-- A command leaves the number of its outcome in STATUS. -/
theorem exec_status {i : Instr} {s t : State} (h : exec i s = .next t) :
    t.status = (outcome i s).number := by
  cases i with
  | setAddr a =>
    simp only [exec, execSetAddr] at h
    simp only [outcome]
    split at h
    · rw [complete_cases h, if_pos ‹_›]
      rfl
    · rw [raise_cases h, if_neg ‹_›]
  | setSpeed sp =>
    simp only [exec, execSetSpeed] at h
    simp only [outcome]
    split at h
    · rw [complete_cases h, if_pos ‹_›]
      rfl
    · rw [raise_cases h, if_neg ‹_›]
  | frame n b0 b1 b2 b3 =>
    simp only [exec, execFrame] at h
    simp only [outcome]
    split at h
    · rw [raise_cases h, if_pos ‹_›]
    · rw [frame_status_of_fits (by simp) h, if_neg ‹_›]
  | serSd =>
    simp only [exec, execSerSd] at h
    simp only [outcome]
    split at h
    · rw [frame_status_of_fits (by simp) h, if_pos ‹_›]
    · rw [raise_cases h, if_neg ‹_›]
  | setDir | setEstop | build => cases h; rfl
  | serReset => exact frame_status_of_fits (d := baselinePayload 0x00#8 0x00#8) (by simp) h
  | serIdle => exact frame_status_of_fits (d := baselinePayload 0xFF#8 0x00#8) (by simp) h
  | serBstopImm => exact frame_status_of_fits (d := baselinePayload 0x00#8 0x40#8) (by simp) h
  | serBstopFloat => exact frame_status_of_fits (d := baselinePayload 0x00#8 0x50#8) (by simp) h
  | bufClear =>
    obtain ⟨m, hm, -⟩ := execBufClear_spec s
    cases hm.symm.trans h
    rfl

/-- Different status codes have different numbers (R94). -/
theorem StatusCode.number_inj {e f : StatusCode} : e.number = f.number ↔ e = f := by
  cases e <;> cases f <;> decide

/-! The cause of each error code. -/

theorem outcome_eq_invalidAddress_iff {i : Instr} {s : State} :
    outcome i s = .invalidAddress ↔ ∃ a, i = .setAddr a ∧ (a.toNat = 0 ∨ 128 ≤ a.toNat) := by
  cases i with
  | setAddr a =>
    have hcheck : ¬(1 ≤ a.toNat ∧ a.toNat ≤ 127) ↔ a.toNat = 0 ∨ 128 ≤ a.toNat := by omega
    simp [outcome, addrValid_iff, hcheck]
  | _ => simp [outcome, ite_eq_iff]

theorem outcome_eq_invalidSpeed_iff {i : Instr} {s : State} :
    outcome i s = .invalidSpeed ↔ ∃ sp, i = .setSpeed sp ∧ 29 ≤ sp.toNat := by
  cases i with
  | setSpeed sp => simp [outcome, speedValid_iff, Nat.lt_iff_add_one_le]
  | _ => simp [outcome, ite_eq_iff]

theorem outcome_eq_tooLong_iff {i : Instr} {s : State} :
    outcome i s = .tooLong ↔ ∃ n b0 b1 b2 b3, i = .frame n b0 b1 b2 b3 ∧ 5 ≤ n := by
  cases i with
  | frame n b0 b1 b2 b3 => simp [outcome, countTooLong_iff]
  | _ => simp [outcome, ite_eq_iff]

theorem outcome_eq_noPacket_iff {i : Instr} {s : State} :
    outcome i s = .noPacket ↔ i = .serSd ∧ s.pktValid = false := by
  cases i with
  | serSd => simp [outcome]
  | _ => simp [outcome, ite_eq_iff]

/-- Only a word that decodes to no command raises ILLEGAL_COMMAND (R95, R98). -/
theorem outcome_ne_illegalCommand (i : Instr) (s : State) : outcome i s ≠ .illegalCommand := by
  cases i <;> simp [outcome, ite_eq_iff]

/-- Settles O44: STATUS is the number of the outcome, and each code has its cause. -/
theorem statusNamesTheOutcome : Obligations.StatusNamesTheOutcome := by
  intro i s t h
  have hcode (e : StatusCode) : t.status = e.number ↔ outcome i s = e := by
    rw [exec_status h, StatusCode.number_inj]
  have hle : t.status.toNat ≤ 5 := exec_status h ▸ StatusCode.number_le _
  exact ⟨(hcode .invalidAddress).trans outcome_eq_invalidAddress_iff,
    (hcode .invalidSpeed).trans outcome_eq_invalidSpeed_iff,
    (hcode .tooLong).trans outcome_eq_tooLong_iff,
    (hcode .noPacket).trans outcome_eq_noPacket_iff,
    fun h4 => outcome_ne_illegalCommand i s ((hcode .illegalCommand).mp h4),
    fun h6 => absurd hle (by simp [h6]), fun h7 => absurd hle (by simp [h7])⟩

/-! ### Several instances (R104) -/

theorem platformStep_of_step {p : Platform} {k : Nat} {s t : State} (hk : p[k]? = some s)
    (h : step s = .next t) : platformStep k p = .next (p.set k t) := by
  simp only [platformStep, hk, h]

/-- Everything `platformStep` can do: nothing when `k` names no entry, else that entry's own step. -/
theorem platformStep_cases {p q : Platform} {k : Nat} (h : platformStep k p = .next q) :
    (p[k]? = none ∧ q = p) ∨
      ∃ s t, p[k]? = some s ∧ step s = .next t ∧ q = p.set k t := by
  cases hk : p[k]? with
  | none =>
    simp only [platformStep, hk] at h
    cases h
    exact .inl ⟨rfl, rfl⟩
  | some s =>
    obtain ⟨t, ht⟩ := step_total s
    cases (platformStep_of_step hk ht).symm.trans h
    exact .inr ⟨s, t, rfl, ht, rfl⟩

/-- Settles O47: the step writes the one entry of the list that it names. -/
theorem instancesAreIndependent : Obligations.InstancesAreIndependent := by
  refine ⟨fun p q j k h hjk => ?_, fun p k s t hk ht => ⟨_, platformStep_of_step hk ht, ?_⟩⟩
  · obtain ⟨-, rfl⟩ | ⟨s, t, -, -, rfl⟩ := platformStep_cases h
    · rfl
    · exact List.getElem?_set_ne hjk.symm
  · obtain ⟨hlt, -⟩ := List.getElem?_eq_some_iff.mp hk
    exact List.getElem?_set_self hlt

end Sys2Proof.Machine
end

section
/-! SUPPORT. Proofs of the statements about reset and hazards (70_reset_and_hazards.md): that a setter
does not change what SER_SD sends (R115), and what a reset does (R106, R107). -/

namespace Sys2Proof.Machine

/-! ### Setters and SER_SD (R115) -/

/-- What the framing of a payload that fits writes depends on the buffer it starts from alone. -/
theorem frame_same_buffer {d : List Byte} {s t u v : State} (hd : d.length ≤ 4) (hbb : t.bb = s.bb)
    (hu : frame d s = .next u) (hv : frame d t = .next v) :
    v.bb = u.bb ∧ v.len = u.len ∧ v.status = u.status := by
  obtain ⟨m, hm, -, -⟩ := renderPacket_spec d s.bb hd
  simp only [frame, if_neg (requiredBits_fits hd), hbb, hm] at hu hv
  cases hu
  cases hv
  exact ⟨rfl, rfl, rfl⟩

/-- SER_SD reads the packet register and no field of the builder. -/
theorem exec_serSd_same_packet {s t u v : State}
    (hpkt : t.pktAddr = s.pktAddr ∧ t.pktInstr = s.pktInstr ∧ t.pktValid = s.pktValid)
    (hbuf : t.bb = s.bb ∧ t.len = s.len)
    (hu : exec .serSd s = .next u) (hv : exec .serSd t = .next v) :
    v.bb = u.bb ∧ v.len = u.len ∧ v.status = u.status := by
  obtain ⟨haddr, hinstr, hvalid⟩ := hpkt
  obtain ⟨hbb, hlen⟩ := hbuf
  simp only [exec, execSerSd, haddr, hinstr, hvalid] at hu hv
  split at hu
  · rw [if_pos ‹_›] at hv
    exact frame_same_buffer (by simp) hbb hu hv
  · rw [if_neg ‹_›] at hv
    rw [raise_cases hu, raise_cases hv]
    exact ⟨hbb, hlen, rfl⟩

/-- A setter stages a field of the builder: it neither builds nor writes the buffer (R11, R22). -/
theorem setter_keeps_packet_and_buffer {i : Instr} {s t : State} (hi : setterField i ≠ none)
    (h : exec i s = .next t) :
    (t.pktAddr = s.pktAddr ∧ t.pktInstr = s.pktInstr ∧ t.pktValid = s.pktValid) ∧
      t.bb = s.bb ∧ t.len = s.len := by
  have hbuild : i ≠ .build := by
    rintro rfl
    exact hi rfl
  have hwriter : mayWriteBuffer i = false := by
    cases i with
    | setAddr | setSpeed | setDir | setEstop | build => rfl
    | frame | serSd | serReset | serIdle | serBstopImm | serBstopFloat | bufClear =>
      exact absurd rfl hi
  exact ⟨exec_keeps_packet h hbuild, exec_keeps_buffer hwriter h⟩

/-- Settles O27: the setter keeps all that SER_SD reads. -/
theorem settersDoNotChangeWhatIsSent : Obligations.SettersDoNotChangeWhatIsSent := by
  intro i s t u v hi h hu hv
  obtain ⟨hpkt, hbuf⟩ := setter_keeps_packet_and_buffer hi h
  exact exec_serSd_same_packet hpkt hbuf hu hv

/-! ### Reset (R106, R107) -/

/-- A reset asserted at once lands whether or not a command is in progress. -/
theorem step_rstInFlight {s : State} {rest : List HostEvent}
    (hev : s.hostEvents = .rstInFlight :: rest) :
    step s = .next { State.reset with hostEvents := rest } := by
  unfold step
  rw [hev]
  cases s.inProgress with
  | none => rfl
  | some w => rfl

/-- A reset that waits for the block to be idle lands on an idle block. -/
theorem step_rst_idle {s : State} {rest : List HostEvent} (hip : s.inProgress = none)
    (hev : s.hostEvents = .rst :: rest) :
    step s = .next { State.reset with hostEvents := rest } := by
  unfold step
  rw [hip, hev]
  rfl

/-- Settles O10, one kind of reset at a time. -/
theorem resetAbandonsAndRestores : Obligations.ResetAbandonsAndRestores := by
  rintro s e rest hev (rfl | ⟨rfl, hip⟩)
  · exact ⟨_, step_rstInFlight hev, rfl, rfl, rfl⟩
  · exact ⟨_, step_rst_idle hip hev, rfl, rfl, rfl⟩

/-- No cell is listed after a reset, so every cell reads the 0 of R107. -/
@[simp] theorem readCell_reset (p : Nat) : readCell State.reset.bb p = false := rfl

/-- Settles O11. -/
theorem resetValues : Obligations.ResetValues :=
  ⟨rfl, rfl, rfl, rfl, rfl, rfl, rfl, rfl, rfl, rfl, fun p _ => readCell_reset p, rfl, rfl, rfl, rfl⟩

/-- Settles O39: the reset state is the one a reset leaves when the host drives nothing. -/
theorem resetMeetsTheInvariant : Obligations.ResetMeetsTheInvariant :=
  StateInvariant.reset_withEvents []

end Sys2Proof.Machine
end
